-- ==== Sys2Proof/Word.lean ====
section
/-! DEFINITION. The words of the machine: bytes, 16-bit words, and the fields of an instruction word.
Every quantity is unsigned (spec/00_scope.md section 5, spec/42_alu.md R120). -/

namespace Sys2Proof

/-- A byte: a general register, a timer, a memory cell (spec/10_state.md R10, R21, R22). -/
abbrev Byte := BitVec 8

/-- A 16-bit word: an instruction word, `pc`, `I`, a stack slot (spec/00_scope.md R4). -/
abbrev Word := BitVec 16

/-- A 4-bit register field `x` or `y` of an instruction word; the value 15 names the flag register and
is refused when the instruction executes (spec/30_encoding.md R61, spec/40_step_cycle.md R85). -/
abbrev Reg := BitVec 4

/-- A 4-bit field that is no register: the sprite height, or the ignored low nibble of families 5 and 9. -/
abbrev Nibble := BitVec 4

/-- The 12-bit field `nnn` (spec/30_encoding.md R61). -/
abbrev Addr12 := BitVec 12

/-- The index of the flag register (`FLAG_REG`, spec/00_scope.md R4). -/
abbrev flagReg : Reg := 15#4

end Sys2Proof
end

