-- ==== Sys2Proof/Machine/Flags.lean ====
section
/-! DEFINITION. What each instruction writes to the flag register `V[15]`, computed from the operands as they were
before it (spec/10_state.md R12, spec/42_alu.md R120, spec/70_reset_and_hazards.md R242). -/

namespace Sys2Proof.Machine

/-- The whole 8-bit flag register holds 1 or 0 (R12). -/
def flagByte (c : Bool) : Byte := if c then 1 else 0

/-- `ADD Vx, Vy`: the carry out (R127). -/
def carryFlag (a b : Byte) : Byte := flagByte (decide (a.toNat + b.toNat > 255))

/-- `SUB` and, with the operands swapped, `SUBN`: strictly greater, equal operands give 0 (R128, R130). -/
def greaterFlag (a b : Byte) : Byte := flagByte (decide (a.toNat > b.toNat))

/-- `SHR`: bit 0, the bit shifted out (R129). -/
def lowBitFlag (a : Byte) : Byte := flagByte (a.getLsbD 0)

/-- `SHL`: bit 7, the bit shifted out (R131). -/
def highBitFlag (a : Byte) : Byte := flagByte (a.getLsbD 7)

end Sys2Proof.Machine
end

