-- ==== Sys2Proof/Syntax.lean ====
section
/-! DEFINITION. The 35 instructions of spec/opcode_table.json, one constructor per row in the table's order
(spec/30_encoding.md R65). -/

namespace Sys2Proof

/-- An instruction, with every field of its word. A register field may hold 15: the word decodes, and its
execution faults (spec/30_encoding.md R70). `seVV` and `sneVV` keep the low nibble `n` that the machine ignores
(R67), so that the instruction still determines its word. -/
inductive Instr where
  /-- CLS, `00E0` -/
  | cls
  /-- RET, `00EE` -/
  | ret
  /-- SYS, `0nnn` -/
  | sys (nnn : Addr12)
  /-- JP, `1nnn` -/
  | jp (nnn : Addr12)
  /-- CALL, `2nnn` -/
  | call (nnn : Addr12)
  /-- SE_VK, `3xkk` -/
  | seVK (x : Reg) (kk : Byte)
  /-- SNE_VK, `4xkk` -/
  | sneVK (x : Reg) (kk : Byte)
  /-- SE_VV, `5xy-` -/
  | seVV (x y : Reg) (n : Nibble)
  /-- LD_VK, `6xkk` -/
  | ldVK (x : Reg) (kk : Byte)
  /-- ADD_VK, `7xkk` -/
  | addVK (x : Reg) (kk : Byte)
  /-- LD_VV, `8xy0` -/
  | ldVV (x y : Reg)
  /-- OR, `8xy1` -/
  | or (x y : Reg)
  /-- AND, `8xy2` -/
  | and (x y : Reg)
  /-- XOR, `8xy3` -/
  | xor (x y : Reg)
  /-- ADD_VV, `8xy4` -/
  | addVV (x y : Reg)
  /-- SUB, `8xy5` -/
  | sub (x y : Reg)
  /-- SHR, `8xy6` -/
  | shr (x y : Reg)
  /-- SUBN, `8xy7` -/
  | subn (x y : Reg)
  /-- SHL, `8xyE` -/
  | shl (x y : Reg)
  /-- SNE_VV, `9xy-` -/
  | sneVV (x y : Reg) (n : Nibble)
  /-- LD_I, `Annn` -/
  | ldI (nnn : Addr12)
  /-- JP_V0, `Bnnn` -/
  | jpV0 (nnn : Addr12)
  /-- RND, `Cxkk` -/
  | rnd (x : Reg) (kk : Byte)
  /-- DRW, `Dxyn` -/
  | drw (x y : Reg) (n : Nibble)
  /-- SKP, `Ex9E` -/
  | skp (x : Reg)
  /-- SKNP, `ExA1` -/
  | sknp (x : Reg)
  /-- LD_V_DT, `Fx07` -/
  | ldVDT (x : Reg)
  /-- LD_V_K, `Fx0A` -/
  | ldVKey (x : Reg)
  /-- LD_DT_V, `Fx15` -/
  | ldDTV (x : Reg)
  /-- LD_ST_V, `Fx18` -/
  | ldSTV (x : Reg)
  /-- ADD_I_V, `Fx1E` -/
  | addIV (x : Reg)
  /-- LD_F_V, `Fx29` -/
  | ldFV (x : Reg)
  /-- LD_B_V, `Fx33` -/
  | ldBV (x : Reg)
  /-- LD_MI_V, `Fx55` -/
  | ldMIV (x : Reg)
  /-- LD_V_MI, `Fx65` -/
  | ldVMI (x : Reg)
  deriving DecidableEq, Repr

end Sys2Proof
end

