-- ==== Sys2Proof/WellFormed.lean ====
section
/-! DEFINITION. Which terms of `Instr` some instruction word stands for. -/

namespace Sys2Proof

/-- The two words `00E0` and `00EE` are CLS and RET, so no SYS word carries their `nnn`
(spec/30_encoding.md R66). Every other combination of fields is some word of the table (R70: a register field
of 15 still decodes). -/
def Instr.wellFormed : Instr → Bool
  | .sys nnn => nnn != 0x0E0#12 && nnn != 0x0EE#12
  | .cls | .ret | .jp _ | .call _ | .seVK _ _ | .sneVK _ _ | .seVV _ _ _ | .ldVK _ _ | .addVK _ _
  | .ldVV _ _ | .or _ _ | .and _ _ | .xor _ _ | .addVV _ _ | .sub _ _ | .shr _ _ | .subn _ _ | .shl _ _
  | .sneVV _ _ _ | .ldI _ | .jpV0 _ | .rnd _ _ | .drw _ _ _ | .skp _ | .sknp _ | .ldVDT _ | .ldVKey _
  | .ldDTV _ | .ldSTV _ | .addIV _ | .ldFV _ | .ldBV _ | .ldMIV _ | .ldVMI _ => true

end Sys2Proof
end

