-- ==== Sys2Proof/Decode.lean ====
section
/-! DEFINITION. Decoding an instruction word, total and refusing by name, and the encoder written from the same
table (spec/30_encoding.md R60 to R71). -/

namespace Sys2Proof

/-- Why bytes are no instruction. -/
inductive DecodeError where
  /-- Fewer than the two bytes of an instruction word (R60). -/
  | truncated
  /-- The word matches no row of the opcode map (R69). -/
  | illegalInstruction (w : Word)
  deriving DecidableEq, Repr

/-! ## Fields of the word (R61) -/

def fieldOp (w : Word) : Nibble := w.extractLsb' 12 4
def fieldX (w : Word) : Reg := w.extractLsb' 8 4
def fieldY (w : Word) : Reg := w.extractLsb' 4 4
def fieldN (w : Word) : Nibble := w.extractLsb' 0 4
def fieldKK (w : Word) : Byte := w.extractLsb' 0 8
def fieldNNN (w : Word) : Addr12 := w.extractLsb' 0 12

/-- The big-endian word of two bytes, the one at the lower address first (spec/20_memory.md R42). -/
def joinBytes (hi lo : Byte) : Word := hi ++ lo

/-! ## The decoder (R64 to R69) -/

/-- Family 0: the two fixed words are matched first, on all 16 bits (R66). -/
def decodeFamily0 (w : Word) : Instr :=
  if w = 0x00E0#16 then .cls
  else if w = 0x00EE#16 then .ret
  else .sys (fieldNNN w)

/-- Family 8, by the lowest nibble (R64). -/
def decodeFamily8 (w : Word) : Except DecodeError Instr :=
  match (fieldN w).toNat with
  | 0x0 => .ok (.ldVV (fieldX w) (fieldY w))
  | 0x1 => .ok (.or (fieldX w) (fieldY w))
  | 0x2 => .ok (.and (fieldX w) (fieldY w))
  | 0x3 => .ok (.xor (fieldX w) (fieldY w))
  | 0x4 => .ok (.addVV (fieldX w) (fieldY w))
  | 0x5 => .ok (.sub (fieldX w) (fieldY w))
  | 0x6 => .ok (.shr (fieldX w) (fieldY w))
  | 0x7 => .ok (.subn (fieldX w) (fieldY w))
  | 0xE => .ok (.shl (fieldX w) (fieldY w))
  | _ => .error (.illegalInstruction w)

/-- Family E, by the low byte (R64). -/
def decodeFamilyE (w : Word) : Except DecodeError Instr :=
  match (fieldKK w).toNat with
  | 0x9E => .ok (.skp (fieldX w))
  | 0xA1 => .ok (.sknp (fieldX w))
  | _ => .error (.illegalInstruction w)

/-- Family F, by the low byte (R64). -/
def decodeFamilyF (w : Word) : Except DecodeError Instr :=
  match (fieldKK w).toNat with
  | 0x07 => .ok (.ldVDT (fieldX w))
  | 0x0A => .ok (.ldVKey (fieldX w))
  | 0x15 => .ok (.ldDTV (fieldX w))
  | 0x18 => .ok (.ldSTV (fieldX w))
  | 0x1E => .ok (.addIV (fieldX w))
  | 0x29 => .ok (.ldFV (fieldX w))
  | 0x33 => .ok (.ldBV (fieldX w))
  | 0x55 => .ok (.ldMIV (fieldX w))
  | 0x65 => .ok (.ldVMI (fieldX w))
  | _ => .error (.illegalInstruction w)

/-- The dispatch on the high nibble (R64, R65). The last arm is unreachable: a nibble is at most 15. -/
def decodeWord (w : Word) : Except DecodeError Instr :=
  match (fieldOp w).toNat with
  | 0x0 => .ok (decodeFamily0 w)
  | 0x1 => .ok (.jp (fieldNNN w))
  | 0x2 => .ok (.call (fieldNNN w))
  | 0x3 => .ok (.seVK (fieldX w) (fieldKK w))
  | 0x4 => .ok (.sneVK (fieldX w) (fieldKK w))
  | 0x5 => .ok (.seVV (fieldX w) (fieldY w) (fieldN w))
  | 0x6 => .ok (.ldVK (fieldX w) (fieldKK w))
  | 0x7 => .ok (.addVK (fieldX w) (fieldKK w))
  | 0x8 => decodeFamily8 w
  | 0x9 => .ok (.sneVV (fieldX w) (fieldY w) (fieldN w))
  | 0xA => .ok (.ldI (fieldNNN w))
  | 0xB => .ok (.jpV0 (fieldNNN w))
  | 0xC => .ok (.rnd (fieldX w) (fieldKK w))
  | 0xD => .ok (.drw (fieldX w) (fieldY w) (fieldN w))
  | 0xE => decodeFamilyE w
  | 0xF => decodeFamilyF w
  | _ => .error (.illegalInstruction w)

/-- One instruction from a byte stream, with the bytes after it: always two bytes, big-endian (R60). -/
def decode : List Byte → Except DecodeError (Instr × List Byte)
  | hi :: lo :: rest =>
    match decodeWord (joinBytes hi lo) with
    | .ok i => .ok (i, rest)
    | .error e => .error e
  | [_] => .error .truncated
  | [] => .error .truncated

/-! ## The encoder (R62, R65) -/

/-- Format `NNN`. -/
def packNNN (op : Nibble) (nnn : Addr12) : Word := op ++ nnn

/-- Formats `XKK` and `XS`. -/
def packXKK (op : Nibble) (x : Reg) (kk : Byte) : Word := op ++ x ++ kk

/-- Formats `XY`, `XYS` and `XYN`. -/
def packXYN (op : Nibble) (x y : Reg) (n : Nibble) : Word := op ++ x ++ y ++ n

/-- The word of an instruction (R65). -/
def encode : Instr → Word
  | .cls => 0x00E0#16
  | .ret => 0x00EE#16
  | .sys nnn => packNNN 0x0#4 nnn
  | .jp nnn => packNNN 0x1#4 nnn
  | .call nnn => packNNN 0x2#4 nnn
  | .seVK x kk => packXKK 0x3#4 x kk
  | .sneVK x kk => packXKK 0x4#4 x kk
  | .seVV x y n => packXYN 0x5#4 x y n
  | .ldVK x kk => packXKK 0x6#4 x kk
  | .addVK x kk => packXKK 0x7#4 x kk
  | .ldVV x y => packXYN 0x8#4 x y 0x0#4
  | .or x y => packXYN 0x8#4 x y 0x1#4
  | .and x y => packXYN 0x8#4 x y 0x2#4
  | .xor x y => packXYN 0x8#4 x y 0x3#4
  | .addVV x y => packXYN 0x8#4 x y 0x4#4
  | .sub x y => packXYN 0x8#4 x y 0x5#4
  | .shr x y => packXYN 0x8#4 x y 0x6#4
  | .subn x y => packXYN 0x8#4 x y 0x7#4
  | .shl x y => packXYN 0x8#4 x y 0xE#4
  | .sneVV x y n => packXYN 0x9#4 x y n
  | .ldI nnn => packNNN 0xA#4 nnn
  | .jpV0 nnn => packNNN 0xB#4 nnn
  | .rnd x kk => packXKK 0xC#4 x kk
  | .drw x y n => packXYN 0xD#4 x y n
  | .skp x => packXKK 0xE#4 x 0x9E#8
  | .sknp x => packXKK 0xE#4 x 0xA1#8
  | .ldVDT x => packXKK 0xF#4 x 0x07#8
  | .ldVKey x => packXKK 0xF#4 x 0x0A#8
  | .ldDTV x => packXKK 0xF#4 x 0x15#8
  | .ldSTV x => packXKK 0xF#4 x 0x18#8
  | .addIV x => packXKK 0xF#4 x 0x1E#8
  | .ldFV x => packXKK 0xF#4 x 0x29#8
  | .ldBV x => packXKK 0xF#4 x 0x33#8
  | .ldMIV x => packXKK 0xF#4 x 0x55#8
  | .ldVMI x => packXKK 0xF#4 x 0x65#8

/-- The bytes of a word in memory order, the high byte at the lower address (spec/20_memory.md R42). -/
def wordBytes (w : Word) : List Byte := [w.extractLsb' 8 8, w.extractLsb' 0 8]

/-- The word of a row of spec/opcode_table.json: the low `nbits` bits of `w`, every bit above them 0. -/
def tableWord (nbits w : Nat) : Word := BitVec.ofNat 16 (w % 2 ^ nbits)

/-- What the decoder reads from the bytes of a table row's word, laid out as the hardware stores them. -/
def decodeTableWord (nbits w : Nat) : Option Instr :=
  match decode (wordBytes (tableWord nbits w)) with
  | .ok (i, _) => some i
  | .error _ => none

end Sys2Proof
end

