-- ==== Sys2Proof/Config.lean ====
section
/-! DEFINITION. What the spec fixes for the machine (spec/00_scope.md R4), the open parameters it leaves to
the platform (R5, R6), and the free inputs (spec/10_state.md R27). -/

namespace Sys2Proof

/-- `MEM_SIZE`: bytes of main memory, addresses 0x000 to 0xFFF (R4). -/
abbrev Config.memSize : Nat := 0x1000

/-- `PROG_BASE`: first address of program space, reset value of `pc`, load address (R4). -/
abbrev Config.progBase : Nat := 0x200

/-- `ROM_MAX`: the largest accepted ROM (R4). -/
abbrev Config.romMax : Nat := 3584

/-- Where the key state comes from (spec/00_scope.md R5 `KEYS`, spec/60_exceptions.md R215). -/
inductive KeySource where
  /-- This build: the provider is a stub, `KEYS` is the constant 0. -/
  | stub
  /-- An input provider is attached: each sample of `KEYS` is a free input. -/
  | provider
  deriving DecidableEq, Repr

/-- `KEYWAIT_MODE` (R5, spec/45_keys_timers.md R173). -/
inductive KeywaitMode where
  | stubZero
  | pollRetry
  deriving DecidableEq, Repr

/-- A font a platform supplies (R5 `FONT`, spec/43_index_memory.md R142, spec/20_memory.md R41, R47):
the glyph address for each of the 256 register values, and the readable window, whose bytes the platform
places in the reserved region. -/
structure Font where
  /-- `glyph_addr`, tabulated over the 256 values of `V[x]`. -/
  glyphAddr : Vector Word 256
  /-- First address of the readable window. -/
  base : Nat
  /-- The bytes of the window, from `base` upward. -/
  bytes : List Byte
  deriving DecidableEq, Repr

/-- The open parameters of R5 that some rule reads. -/
structure Config where
  keys    : KeySource
  keywait : KeywaitMode
  font    : Option Font
  deriving DecidableEq, Repr

/-- The values of "this build", the third column of the table of R5. -/
def Config.thisBuild : Config := { keys := .stub, keywait := .stubZero, font := none }

/-- The value of `KEYS` at the `n`-th sample where an input provider is attached: a free input under no law
(spec/10_state.md R27, spec/60_exceptions.md R215). -/
opaque Config.keysSample : Nat → BitVec 16

/-- The `n`-th result of `random_byte()`: a free value under no law (spec/42_alu.md R132,
spec/60_exceptions.md R216). -/
opaque Config.randomByte : Nat → BitVec 8

end Sys2Proof
end

