-- ==== Sys2Proof/Machine/State.lean ====
section
/-! DEFINITION. The state of the engine, as plain data (spec/10_state.md section 1, R28), the reasons a step can
stop, and the state after `init()` (spec/70_reset_and_hazards.md R230). -/

namespace Sys2Proof.Machine

/-- The causes of an engine fault (spec/60_exceptions.md R201). -/
inductive Cause where
  | none
  | regIndex
  | stackOverflow
  | stackUnderflow
  | memRange
  | memGuard
  | illegalInstruction
  | noFont
  deriving DecidableEq, Repr

/-- The fault record (spec/10_state.md R26). The spec gives `addr` no width: it is the integer that was
compared with the bounds (spec/20_memory.md R48). -/
structure FaultRecord where
  cause : Cause
  pc    : Word
  ir    : Word
  addr  : Nat
  deriving DecidableEq, Repr

/-- Main memory: the bytes that differ from 0, by rising address (spec/10_state.md R22). -/
abbrev Memory := List Host.Cell

/-- The framebuffer: 32 rows of 64 cells, row-major (spec/10_state.md R23). -/
abbrev Framebuffer := Vector (Vector Bool 64) 32

structure State where
  /-- `V[0]` to `V[15]`; slot 15 is the flag register (R10, R12). -/
  v       : Vector Byte 16
  /-- Between steps, the address of the next instruction (R14). -/
  pc      : Word
  /-- The index register `I` (R17). -/
  index   : Word
  /-- The 16 return-address slots (R18). -/
  stack   : Vector Word 16
  /-- The stack pointer, 0 to 15 (R19). -/
  sp      : Fin 16
  /-- The delay timer (R21). -/
  dt      : Byte
  /-- The sound timer (R21). -/
  st      : Byte
  /-- Main memory `M` (R22). -/
  mem     : Memory
  /-- `FB` (R23). -/
  fb      : Framebuffer
  /-- The dirty flag (R24). -/
  dirty   : Bool
  /-- A ROM has been loaded (R25). -/
  loaded  : Bool
  /-- The loaded length (R25). -/
  romLen  : Nat
  /-- The fault record (R26). -/
  fault   : FaultRecord
  /-- MODEL's own: the open parameters of spec/00_scope.md R5; no operation changes them. -/
  cfg     : Config
  /-- MODEL's own: how many times `KEYS` has been sampled. -/
  keySamples : Nat
  /-- MODEL's own: how many random bytes have been drawn. -/
  rndDraws   : Nat
  deriving DecidableEq, Repr

/-- Why the machine is stuck: an operation was invoked where the spec does not enable it
(spec/10_state.md R29, spec/40_step_cycle.md R80). A fault of the PROGRAM is no such stop: it is taken, a next
state that holds the fault record (spec/60_exceptions.md R209). -/
inductive Fault where
  /-- Raised by `step` before a successful `load`. Safe: the spec gives the operation no step there. -/
  | notLoaded
  /-- Raised by `step` after a fault was recorded. Safe: the engine is halted until `init`. -/
  | halted
  /-- Raised by `load` on a loaded engine. Safe: the spec gives the operation no step there. -/
  | alreadyLoaded
  deriving DecidableEq, Repr

/-- Why an instruction has no meaning in the model. -/
inductive Refusal where
  /-- Raised by `exec` for an instruction the model does not give a meaning; no arm does. Safe. -/
  | notModelled (mnemonic : String)
  deriving DecidableEq, Repr

/-- No fault has happened (R26). -/
def FaultRecord.clear : FaultRecord := { cause := .none, pc := 0, ir := 0, addr := 0 }

/-- Every cell off. -/
def Framebuffer.blank : Framebuffer := Vector.replicate 32 (Vector.replicate 64 false)

/-- The state after `init()` on a machine with the parameters `cfg`: all 4096 bytes are 0, with a font too (R230). -/
def State.resetFor (cfg : Config) : State where
  v := Vector.replicate 16 0
  pc := BitVec.ofNat 16 Config.progBase
  index := 0
  stack := Vector.replicate 16 0
  sp := 0
  dt := 0
  st := 0
  mem := []
  fb := Framebuffer.blank
  dirty := false
  loaded := false
  romLen := 0
  fault := FaultRecord.clear
  cfg := cfg
  keySamples := 0
  rndDraws := 0

/-- The state after `init()` of this build (R230, spec/00_scope.md R5). -/
def State.reset : State := State.resetFor Config.thisBuild

end Sys2Proof.Machine
end

