-- ==== Sys2Proof/Machine/Ops.lean ====
section
/-! DEFINITION. The operations all instructions share: zero extension, registers, the framebuffer's cells, the checks on an
address, taking a fault, and the fetch (spec/20_memory.md R46 to R49, spec/40_step_cycle.md R80 to R87,
spec/60_exceptions.md R209). There is no return from a fault (R212). -/

namespace Sys2Proof.Machine

/-! ## Zero extension (spec/00_scope.md section 5) -/

/-- `zext_16` of a byte (spec/00_scope.md section 5). -/
def byteToWord (b : Byte) : Word := b.setWidth 16

/-- `zext_16` of a 12-bit immediate. -/
def addrToWord (a : Addr12) : Word := a.setWidth 16

/-! ## Registers -/

/-- Read `V[r]`. -/
def State.reg (s : State) (r : Reg) : Byte := s.v[r.toNat]'r.isLt

/-- Write `V[r]`. -/
def State.setReg (s : State) (r : Reg) (b : Byte) : State := { s with v := s.v.set r.toNat b r.isLt }

/-- `V[k]`, `V[k+1]`, … : `n` registers. -/
def State.regsFrom (s : State) (k : Nat) : Nat → List Byte
  | 0 => []
  | n + 1 => s.reg (BitVec.ofNat 4 k) :: State.regsFrom s (k + 1) n

/-- Write the bytes to `V[k]`, `V[k+1]`, … in ascending order. -/
def State.setRegsFrom (s : State) (k : Nat) : List Byte → State
  | [] => s
  | b :: bs => State.setRegsFrom (s.setReg (BitVec.ofNat 4 k) b) (k + 1) bs

/-! ## The framebuffer -/

/-- `FB[r][c]`. -/
def Framebuffer.get (f : Framebuffer) (r : Fin 32) (c : Fin 64) : Bool := (f[r.val]'r.isLt)[c.val]'c.isLt

/-- Write `FB[r][c]`. -/
def Framebuffer.set (f : Framebuffer) (r : Fin 32) (c : Fin 64) (b : Bool) : Framebuffer :=
  Vector.set f r.val (Vector.set (f[r.val]'r.isLt) c.val b c.isLt) r.isLt

/-! ## Faults -/

/-- What a part of a step raises: a cause and the offending address, 0 where the cause has none (R201). -/
structure Trap where
  cause : Cause
  addr  : Nat
  deriving DecidableEq, Repr

/-- The numeric code of a cause (R201). -/
def Cause.code : Cause → Nat
  | .none => 0
  | .regIndex => 1
  | .stackOverflow => 2
  | .stackUnderflow => 3
  | .memRange => 4
  | .memGuard => 5
  | .illegalInstruction => 6
  | .noFont => 7

/-- Taking a fault: the record is written and nothing else changes; `pc` is still the address of the faulting
instruction (R87, R209). The engine is halted from then on, since `State.stuck` reads the record. -/
def State.raise (s : State) (t : Trap) (ir : Word) : State :=
  { s with fault := { cause := t.cause, pc := s.pc, ir := ir, addr := t.addr } }

/-! ## Address checks -/

/-- The kinds of access by the engine (spec/20_memory.md R47). -/
inductive Access where
  | fetch
  | read
  | write
  deriving DecidableEq, Repr

/-- The address lies in the window the platform declares (R47). -/
def inFontWindow (f : Font) (a : Nat) : Bool := f.base ≤ a && a < f.base + f.bytes.length

/-- The access is a data read in the window of a supplied font (R47). -/
def fontReadable (cfg : Config) (kind : Access) (ea : Nat) : Bool :=
  match kind, cfg.font with
  | .read, some f => inFontWindow f ea
  | .read, none => false
  | .fetch, _ => false
  | .write, _ => false

/-- The fault of an access to one byte at `ea`: above 0xFFF (R46), or below 0x200 and not exempt (R47). -/
def addressFault (cfg : Config) (kind : Access) (ea : Nat) : Option Cause :=
  if ea ≥ Config.memSize then some .memRange
  else if ea < Config.progBase && !fontReadable cfg kind ea then some .memGuard
  else none

/-- The fault of an access to `n` bytes from `ea` upward: that of the lowest failing address; none when `n` is 0
(R49). -/
def accessFault (cfg : Config) (kind : Access) (ea : Nat) : Nat → Option Trap
  | 0 => none
  | n + 1 =>
    match addressFault cfg kind ea with
    | some c => some { cause := c, addr := ea }
    | none => accessFault cfg kind (ea + 1) n

/-- A data access of `n` bytes at `I`: the integers `I + k`, not wrapped (R48). -/
def State.dataFault (s : State) (kind : Access) (n : Nat) : Option Trap :=
  accessFault s.cfg kind s.index.toNat n

/-! ## The parts of a step around an instruction -/

/-- Why no step is enabled, if none is (R80). -/
def State.stuck (s : State) : Option Fault :=
  if !s.loaded then some .notLoaded
  else if s.fault.cause != .none then some .halted
  else none

/-- The big-endian word at `pc` (spec/20_memory.md R42). -/
def State.fetchWord (s : State) : Word :=
  joinBytes (s.mem.read s.pc.toNat) (s.mem.read (s.pc.toNat + 1))

/-- The checks of the fetch's two addresses (R81). -/
def State.fetchFault (s : State) : Option Trap := accessFault s.cfg .fetch s.pc.toNat 2

/-- `pc <- a + 2`, before the instruction executes (R82). -/
def State.advance (s : State) : State := { s with pc := s.pc + 2 }

/-- The trap of a word that decodes to nothing (R83, R207). -/
def illegalTrap : Trap := { cause := .illegalInstruction, addr := 0 }

/-- The trap of a register field of 15 (R85, R202). -/
def regIndexTrap : Trap := { cause := .regIndex, addr := 0 }

end Sys2Proof.Machine
end

