-- ==== Sys2Proof/Machine/Operands.lean ====
section
/-! DEFINITION. The operand forms: register fields and their check, skips, key input, random input
(spec/30_encoding.md R63, spec/40_step_cycle.md R85, R86, spec/45_keys_timers.md R170). -/

namespace Sys2Proof.Machine

/-- The register fields of an instruction that are tested against 15, in the order of the test (R85). -/
def testedRegs : Instr → List Reg
  | .cls | .ret | .sys _ | .jp _ | .call _ | .ldI _ | .jpV0 _ => []
  | .seVK x _ | .sneVK x _ | .ldVK x _ | .addVK x _ | .rnd x _ | .skp x | .sknp x
  | .ldVDT x | .ldVKey x | .ldDTV x | .ldSTV x | .addIV x | .ldFV x | .ldBV x | .ldMIV x | .ldVMI x => [x]
  | .seVV x y _ | .sneVV x y _ | .drw x y _
  | .ldVV x y | .or x y | .and x y | .xor x y | .addVV x y | .sub x y | .shr x y | .subn x y | .shl x y => [x, y]

/-- Check the register fields, then run the instruction's own rule on the state with `pc` advanced, then commit its
writes together, or take its fault on the state as it was before the step (R82, R85, R86, R87). -/
def perform (i : Instr) (s : State) (rule : State → Except Trap State) : Host.Outcome State Fault Refusal :=
  if flagReg ∈ testedRegs i then .next (s.raise regIndexTrap (encode i))
  else
    match rule s.advance with
    | .ok t => .next t
    | .error e => .next (s.raise e (encode i))

/-- The rule of a data access of `n` bytes at `I`: all addresses are checked before any byte moves
(spec/20_memory.md R49). -/
def withAccess (kind : Access) (n : Nat) (p : State) (rule : State → State) : Except Trap State :=
  match p.dataFault kind n with
  | some e => .error e
  | none => .ok (rule p)

/-- `pc <- pc + 2` on the advanced `pc`, if the condition holds (spec/41_control_flow.md R109). -/
def State.skipIf (p : State) (c : Bool) : State := if c then { p with pc := p.pc + 2 } else p

/-- Write a result and a flag: the register first or last makes no difference, as a tested field is never 15
(R85, R86). -/
def State.setRegFlag (p : State) (x : Reg) (b flag : Byte) : State := (p.setReg flagReg flag).setReg x b

/-- The value of `KEYS` a sample yields now: the constant 0 of this build, or a free input
(spec/00_scope.md R5, spec/60_exceptions.md R215). -/
def State.keysNow (s : State) : Word :=
  match s.cfg.keys with
  | .stub => 0
  | .provider => Config.keysSample s.keySamples

/-- A step that executes a key instruction samples `KEYS` once (R170). -/
def State.sampled (s : State) : State := { s with keySamples := s.keySamples + 1 }

/-- `pressed(v)`: a register value of 16 or more names no key (R170). -/
def pressed (keys : Word) (v : Byte) : Bool := decide (v.toNat < 16) && keys.getLsbD v.toNat

/-- The lowest key that is down; none exactly when `KEYS` is 0 (R173). -/
def lowestKey (keys : Word) : Option Nat := (List.range 16).find? keys.getLsbD

/-- A step that executes `RND` draws one byte (spec/42_alu.md R132). -/
def State.drawn (s : State) : State := { s with rndDraws := s.rndDraws + 1 }

end Sys2Proof.Machine
end

