-- ==== Sys2Proof/Machine/Alu.lean ====
section
/-! DEFINITION. Register loads, the 8-bit arithmetic and logic unit, the random draw (spec/42_alu.md). -/

namespace Sys2Proof.Machine

/-- `LD Vx, kk` (R121). -/
def execLdVK (x : Reg) (kk : Byte) (s : State) : Host.Outcome State Fault Refusal :=
  perform (.ldVK x kk) s fun p => .ok (p.setReg x kk)

/-- `ADD Vx, kk`: no flag (R122). -/
def execAddVK (x : Reg) (kk : Byte) (s : State) : Host.Outcome State Fault Refusal :=
  perform (.addVK x kk) s fun p => .ok (p.setReg x (p.reg x + kk))

/-- `LD Vx, Vy` (R123). -/
def execLdVV (x y : Reg) (s : State) : Host.Outcome State Fault Refusal :=
  perform (.ldVV x y) s fun p => .ok (p.setReg x (p.reg y))

/-- `OR Vx, Vy`: no flag (R124). -/
def execOr (x y : Reg) (s : State) : Host.Outcome State Fault Refusal :=
  perform (.or x y) s fun p => .ok (p.setReg x (p.reg x ||| p.reg y))

/-- `AND Vx, Vy`: no flag (R125). -/
def execAnd (x y : Reg) (s : State) : Host.Outcome State Fault Refusal :=
  perform (.and x y) s fun p => .ok (p.setReg x (p.reg x &&& p.reg y))

/-- `XOR Vx, Vy`: no flag (R126). -/
def execXor (x y : Reg) (s : State) : Host.Outcome State Fault Refusal :=
  perform (.xor x y) s fun p => .ok (p.setReg x (p.reg x ^^^ p.reg y))

/-- `ADD Vx, Vy`: flag is the carry out (R127). -/
def execAddVV (x y : Reg) (s : State) : Host.Outcome State Fault Refusal :=
  perform (.addVV x y) s fun p =>
    .ok (p.setRegFlag x (p.reg x + p.reg y) (carryFlag (p.reg x) (p.reg y)))

/-- `SUB Vx, Vy`: flag is 1 when `V[x] > V[y]` (R128). -/
def execSub (x y : Reg) (s : State) : Host.Outcome State Fault Refusal :=
  perform (.sub x y) s fun p =>
    .ok (p.setRegFlag x (p.reg x - p.reg y) (greaterFlag (p.reg x) (p.reg y)))

/-- `SHR Vx, Vy`: `V[x]` in place by one, `V[y]` is not read (R129). -/
def execShr (x y : Reg) (s : State) : Host.Outcome State Fault Refusal :=
  perform (.shr x y) s fun p => .ok (p.setRegFlag x (p.reg x >>> 1) (lowBitFlag (p.reg x)))

/-- `SUBN Vx, Vy`: flag is 1 when `V[y] > V[x]` (R130). -/
def execSubn (x y : Reg) (s : State) : Host.Outcome State Fault Refusal :=
  perform (.subn x y) s fun p =>
    .ok (p.setRegFlag x (p.reg y - p.reg x) (greaterFlag (p.reg y) (p.reg x)))

/-- `SHL Vx, Vy`: `V[x]` in place by one, `V[y]` is not read (R131). -/
def execShl (x y : Reg) (s : State) : Host.Outcome State Fault Refusal :=
  perform (.shl x y) s fun p => .ok (p.setRegFlag x (p.reg x <<< 1) (highBitFlag (p.reg x)))

/-- `RND Vx, kk` with the byte `r` that the random source supplies (R132). -/
def rndWith (r : Byte) (x : Reg) (kk : Byte) (s : State) : Host.Outcome State Fault Refusal :=
  perform (.rnd x kk) s fun p => .ok (p.drawn.setReg x (r &&& kk))

/-- `RND Vx, kk`: the byte is the next free value (R132, spec/60_exceptions.md R216). -/
def execRnd (x : Reg) (kk : Byte) (s : State) : Host.Outcome State Fault Refusal :=
  rndWith (Config.randomByte s.rndDraws) x kk s

end Sys2Proof.Machine
end

