-- ==== Sys2Proof/Machine/ControlFlow.lean ====
section
/-! DEFINITION. Control transfer: no-op, return, jump, call, skips (spec/41_control_flow.md). In every rule `p` is the
state with `pc` already advanced. -/

namespace Sys2Proof.Machine

/-- `SYS nnn`: no operation (R100). -/
def execSys (nnn : Addr12) (s : State) : Host.Outcome State Fault Refusal :=
  perform (.sys nnn) s fun p => .ok p

/-- `RET`: `pc` from `stack[sp]`, then `sp - 1`; an empty stack faults (R101). -/
def execRet (s : State) : Host.Outcome State Fault Refusal :=
  perform .ret s fun p =>
    if p.sp.val = 0 then .error { cause := .stackUnderflow, addr := 0 }
    else .ok { p with pc := p.stack[p.sp.val]'p.sp.isLt, sp := p.sp - 1 }

/-- `JP nnn` (R102). -/
def execJp (nnn : Addr12) (s : State) : Host.Outcome State Fault Refusal :=
  perform (.jp nnn) s fun p => .ok { p with pc := addrToWord nnn }

/-- `CALL nnn`: the advanced `pc` goes to the slot at the incremented pointer; the sixteenth nested call faults
(R103). -/
def execCall (nnn : Addr12) (s : State) : Host.Outcome State Fault Refusal :=
  perform (.call nnn) s fun p =>
    if h : p.sp.val + 1 > 15 then .error { cause := .stackOverflow, addr := 0 }
    else .ok { p with
      stack := p.stack.set (p.sp.val + 1) p.pc (by omega)
      sp := ⟨p.sp.val + 1, by omega⟩
      pc := addrToWord nnn }

/-- `SE Vx, kk` (R104). -/
def execSeVK (x : Reg) (kk : Byte) (s : State) : Host.Outcome State Fault Refusal :=
  perform (.seVK x kk) s fun p => .ok (p.skipIf (p.reg x == kk))

/-- `SNE Vx, kk` (R105). -/
def execSneVK (x : Reg) (kk : Byte) (s : State) : Host.Outcome State Fault Refusal :=
  perform (.sneVK x kk) s fun p => .ok (p.skipIf (p.reg x != kk))

/-- `SE Vx, Vy` (R106); the low nibble is ignored (spec/30_encoding.md R67). -/
def execSeVV (x y : Reg) (n : Nibble) (s : State) : Host.Outcome State Fault Refusal :=
  perform (.seVV x y n) s fun p => .ok (p.skipIf (p.reg x == p.reg y))

/-- `SNE Vx, Vy` (R107); the low nibble is ignored (spec/30_encoding.md R67). -/
def execSneVV (x y : Reg) (n : Nibble) (s : State) : Host.Outcome State Fault Refusal :=
  perform (.sneVV x y n) s fun p => .ok (p.skipIf (p.reg x != p.reg y))

/-- `JP V0, nnn`: the sum fits in 16 bits and is not reduced to 12 (R108). -/
def execJpV0 (nnn : Addr12) (s : State) : Host.Outcome State Fault Refusal :=
  perform (.jpV0 nnn) s fun p => .ok { p with pc := addrToWord nnn + byteToWord (p.reg 0) }

end Sys2Proof.Machine
end

