-- ==== Sys2Proof/Machine/Display.lean ====
section
/-! DEFINITION. Clear screen and the sprite compositor (spec/44_display.md). -/

namespace Sys2Proof.Machine

/-- `CLS`: `dirty` is set even when no cell was on (R160). -/
def execCls (s : State) : Host.Outcome State Fault Refusal :=
  perform .cls s fun p => .ok { p with fb := Framebuffer.blank, dirty := true }

/-- A draw in progress: the framebuffer, and whether a cell was erased. -/
structure Drawing where
  fb     : Framebuffer
  erased : Bool
  deriving DecidableEq, Repr

/-- One set bit of the sprite: coordinates wrap on each axis (R161). -/
def drawPixel (d : Drawing) (row col : Nat) : Drawing :=
  let r : Fin 32 := ⟨row % 32, Nat.mod_lt _ (by decide)⟩
  let c : Fin 64 := ⟨col % 64, Nat.mod_lt _ (by decide)⟩
  if d.fb.get r c then { fb := d.fb.set r c false, erased := true }
  else { d with fb := d.fb.set r c true }

/-- One row of the sprite; bit 7 is the leftmost pixel (R161). -/
def drawRow (d : Drawing) (b : Byte) (row col : Nat) : Drawing :=
  (List.range 8).foldl (fun d c => if b.getLsbD (7 - c) then drawPixel d row (col + c) else d) d

/-- The rows of the sprite, downward from `row` (R161). -/
def drawRows (d : Drawing) (row col : Nat) : List Byte → Drawing
  | [] => d
  | b :: bs => drawRows (drawRow d b row col) (row + 1) col bs

/-- The drawing of `n` rows from memory at `I`, at column `V[x]`, row `V[y]` (R161). -/
def State.drawing (p : State) (x y : Reg) (n : Nibble) : Drawing :=
  drawRows { fb := p.fb, erased := false } (p.reg y).toNat (p.reg x).toNat (p.mem.readBytes p.index.toNat n.toNat)

/-- `DRW Vx, Vy, n`: the flag reports an erase, `I` advances by `n` modulo 65536, `dirty` is set always (R161). -/
def execDrw (x y : Reg) (n : Nibble) (s : State) : Host.Outcome State Fault Refusal :=
  perform (.drw x y n) s fun p => withAccess .read n.toNat p fun q =>
    { q.setReg flagReg (flagByte (q.drawing x y n).erased) with
      fb := (q.drawing x y n).fb
      index := q.index + n.setWidth 16
      dirty := true }

end Sys2Proof.Machine
end

