-- ==== Sys2Proof/Machine/IndexMemory.lean ====
section
/-! DEFINITION. The index register and memory transfers (spec/43_index_memory.md). The base register `I` is not
modified by the three transfers (R146). -/

namespace Sys2Proof.Machine

/-- `LD I, nnn` (R140). -/
def execLdI (nnn : Addr12) (s : State) : Host.Outcome State Fault Refusal :=
  perform (.ldI nnn) s fun p => .ok { p with index := addrToWord nnn }

/-- `ADD I, Vx`: modulo 65536, no flag (R141). -/
def execAddIV (x : Reg) (s : State) : Host.Outcome State Fault Refusal :=
  perform (.addIV x) s fun p => .ok { p with index := p.index + byteToWord (p.reg x) }

/-- `LD F, Vx`: the platform's glyph address, or the fault of the missing font (R142). -/
def execLdFV (x : Reg) (s : State) : Host.Outcome State Fault Refusal :=
  perform (.ldFV x) s fun p =>
    match p.cfg.font with
    | none => .error { cause := .noFont, addr := 0 }
    | some f => .ok { p with index := f.glyphAddr[(p.reg x).toNat]'(p.reg x).isLt }

/-- Hundreds, tens and ones of a byte, one digit a byte (R143). -/
def decimalDigits (v : Byte) : List Byte :=
  [BitVec.ofNat 8 (v.toNat / 100), BitVec.ofNat 8 (v.toNat / 10 % 10), BitVec.ofNat 8 (v.toNat % 10)]

/-- `LD B, Vx`: the three digits at `I`, `I + 1`, `I + 2` (R143). -/
def execLdBV (x : Reg) (s : State) : Host.Outcome State Fault Refusal :=
  perform (.ldBV x) s fun p => withAccess .write 3 p fun q =>
    { q with mem := q.mem.writeBytes q.index.toNat (decimalDigits (q.reg x)) }

/-- `LD [I], Vx`: `V[0]` to `V[x]` to memory (R144). -/
def execLdMIV (x : Reg) (s : State) : Host.Outcome State Fault Refusal :=
  perform (.ldMIV x) s fun p => withAccess .write (x.toNat + 1) p fun q =>
    { q with mem := q.mem.writeBytes q.index.toNat (q.regsFrom 0 (x.toNat + 1)) }

/-- `LD Vx, [I]`: memory to `V[0]` to `V[x]` (R145). -/
def execLdVMI (x : Reg) (s : State) : Host.Outcome State Fault Refusal :=
  perform (.ldVMI x) s fun p => withAccess .read (x.toNat + 1) p fun q =>
    q.setRegsFrom 0 (q.mem.readBytes q.index.toNat (x.toNat + 1))

end Sys2Proof.Machine
end

