-- ==== Sys2Proof/Machine/KeysTimers.lean ====
section
/-! DEFINITION. Key instructions and timer moves (spec/45_keys_timers.md). -/

namespace Sys2Proof.Machine

/-- `SKP Vx` with the sampled value of `KEYS` (R171). -/
def skpWith (keys : Word) (x : Reg) (s : State) : Host.Outcome State Fault Refusal :=
  perform (.skp x) s fun p => .ok (p.sampled.skipIf (pressed keys (p.reg x)))

/-- `SKP Vx` (R171). -/
def execSkp (x : Reg) (s : State) : Host.Outcome State Fault Refusal := skpWith s.keysNow x s

/-- `SKNP Vx` with the sampled value of `KEYS` (R172). -/
def sknpWith (keys : Word) (x : Reg) (s : State) : Host.Outcome State Fault Refusal :=
  perform (.sknp x) s fun p => .ok (p.sampled.skipIf (!pressed keys (p.reg x)))

/-- `SKNP Vx` (R172). -/
def execSknp (x : Reg) (s : State) : Host.Outcome State Fault Refusal := sknpWith s.keysNow x s

/-- `LD Vx, K` in `POLL_RETRY` mode with the sampled value of `KEYS`: with no key down `pc` goes back to the
instruction itself, else the lowest key is stored (R173). -/
def pollRetry (keys : Word) (x : Reg) (p : State) : State :=
  match lowestKey keys with
  | none => { p.sampled with pc := p.pc - 2 }
  | some k => p.sampled.setReg x (BitVec.ofNat 8 k)

/-- `LD Vx, K` with the value of `KEYS` that a sample would yield; `STUB_ZERO` reads none (R173). -/
def ldVKeyWith (keys : Word) (x : Reg) (s : State) : Host.Outcome State Fault Refusal :=
  perform (.ldVKey x) s fun p =>
    match p.cfg.keywait with
    | .stubZero => .ok (p.setReg x 0)
    | .pollRetry => .ok (pollRetry keys x p)

/-- `LD Vx, K` (R173). -/
def execLdVKey (x : Reg) (s : State) : Host.Outcome State Fault Refusal := ldVKeyWith s.keysNow x s

/-- `LD Vx, DT` (R174). -/
def execLdVDT (x : Reg) (s : State) : Host.Outcome State Fault Refusal :=
  perform (.ldVDT x) s fun p => .ok (p.setReg x p.dt)

/-- `LD DT, Vx` (R175). -/
def execLdDTV (x : Reg) (s : State) : Host.Outcome State Fault Refusal :=
  perform (.ldDTV x) s fun p => .ok { p with dt := p.reg x }

/-- `LD ST, Vx` (R176). -/
def execLdSTV (x : Reg) (s : State) : Host.Outcome State Fault Refusal :=
  perform (.ldSTV x) s fun p => .ok { p with st := p.reg x }

end Sys2Proof.Machine
end

