-- ==== Sys2Proof/Machine/Step.lean ====
section
/-! DEFINITION. `step()`: fetch, decode, check, execute (spec/40_step_cycle.md R80 to R89), and the placing of an
instruction where the next step fetches it. -/

namespace Sys2Proof.Machine

/-- One step (R89). Stuck where none is enabled; a program's fault is taken, in a next state. -/
def step (s : State) : Host.Outcome State Fault Refusal :=
  match s.stuck with
  | some f => .fault f
  | none =>
    match s.fetchFault with
    | some e => .next (s.raise e 0)
    | none =>
      match decodeWord s.fetchWord with
      | .error _ => .next (s.raise illegalTrap s.fetchWord)
      | .ok i => exec i s

/-- `s` with a program counter the fetch accepts: its own, or the entry point where its own is refused. -/
def State.withFetchablePc (s : State) : State :=
  match s.fetchFault with
  | none => s
  | some _ => { s with pc := BitVec.ofNat 16 Config.progBase }

/-- `s` with the word of an opcode-table row where the next step fetches. It stands for the host's `load()` of those
two bytes on an engine that is not loaded, so that the very next step runs the instruction. -/
def State.withFetchWord (s : State) (nbits w : Nat) : State :=
  { s.withFetchablePc with
    mem := s.mem.writeBytes s.withFetchablePc.pc.toNat (wordBytes (tableWord nbits w))
    loaded := true
    romLen := if s.loaded then s.romLen else 2
    fault := FaultRecord.clear }

end Sys2Proof.Machine
end

