-- ==== Sys2Proof/Machine/HostOps.lean ====
section
/-! DEFINITION. The host's operations on the engine (spec/10_state.md R29): `init`, `load`, `step`, `tick`,
`render_ack`, each atomic, and a run of them in any order (spec/45_keys_timers.md R179); and the platform's placing of
a font (spec/20_memory.md R41). -/

namespace Sys2Proof.Machine

/-- `init()`: every piece of the spec's state to its reset value (spec/70_reset_and_hazards.md R230). The parameters
stay, and the free inputs go on from where they were. -/
def State.init (s : State) : State :=
  { State.resetFor s.cfg with keySamples := s.keySamples, rndDraws := s.rndDraws }

/-- What `load()` reports to its caller (R233). -/
inductive LoadResult where
  | ok
  | romTooLarge
  deriving DecidableEq, Repr

/-- The result of `load(bytes)` (R232, R233). -/
def loadResult (bytes : List Byte) : LoadResult :=
  if bytes.length ≤ Config.romMax then .ok else .romTooLarge

/-- The state after `load(bytes)`: the ROM from 0x200 upward, or no change when it is too large (R232, R233). -/
def State.load (s : State) (bytes : List Byte) : State :=
  match loadResult bytes with
  | .ok => { s with mem := s.mem.writeBytes Config.progBase bytes, romLen := bytes.length, loaded := true }
  | .romTooLarge => s

/-- One tick of a countdown timer: never below 0 (spec/45_keys_timers.md R178). -/
def countDown (t : Byte) : Byte := if t = 0 then 0 else t - 1

/-- `tick()` (R178). -/
def State.tick (s : State) : State := { s with dt := countDown s.dt, st := countDown s.st }

/-- `render_ack()` (spec/44_display.md R163). -/
def State.renderAck (s : State) : State := { s with dirty := false }

/-- Memory with the bytes of a supplied font that lie in the reserved region (spec/20_memory.md R41); as it is where
the platform supplies none. -/
def Memory.withFont (m : Memory) (font : Option Font) : Memory :=
  match font with
  | none => m
  | some f => m.writeBytes f.base (f.bytes.take (Config.progBase - f.base))

/-- The platform places the font it supplies (R41). It is no operation of the host's table (R29), and no byte from 0x200
upward is written. -/
def State.placeFont (s : State) : State := { s with mem := s.mem.withFont s.cfg.font }

/-- The operations of the host. -/
inductive HostOp where
  | init
  | load (bytes : List Byte)
  | step
  | tick
  | renderAck
  deriving DecidableEq, Repr

/-- One operation; stuck where the spec does not enable it (R29, spec/92_eei_decisions.md D19). -/
def hostOp (op : HostOp) (s : State) : Host.Outcome State Fault Refusal :=
  match op with
  | .init => .next s.init
  | .load bytes => if s.loaded then .fault .alreadyLoaded else .next (s.load bytes)
  | .step => step s
  | .tick => .next s.tick
  | .renderAck => .next s.renderAck

/-- A run: the operations one after another, stopping at the first that is not enabled. -/
def hostRun : List HostOp → State → Host.Outcome State Fault Refusal
  | [], s => .next s
  | op :: ops, s =>
    match hostOp op s with
    | .next t => hostRun ops t
    | .fault f => .fault f
    | .refused r => .refused r

/-! ## What the host is told (spec/40_step_cycle.md R88, spec/60_exceptions.md R209, R210) -/

/-- The result of `step()`: the instruction completed, or the fault (R88). -/
inductive StepResult where
  | ok
  | fault (r : FaultRecord)
  deriving DecidableEq, Repr

/-- What `step()` returns to the host, read from the state it leaves (R88, R209). -/
def State.stepResult (t : State) : StepResult :=
  match t.fault.cause with
  | .none => .ok
  | _ => .fault t.fault

/-- The end of a run. After a fault it is the record alone, so that nothing else of the faulted state is in it (R210). -/
inductive RunEnd where
  /-- A successful run, in its final state. -/
  | final (t : State)
  /-- The machine is halted by this fault. -/
  | faulted (r : FaultRecord)
  /-- An operation was not enabled. -/
  | stuck (f : Fault)
  /-- An instruction had no meaning; this never happens. -/
  | refused (r : Refusal)
  deriving DecidableEq, Repr

/-- The end of a run: a state with a fault recorded is never the final state of a successful run (R210). -/
def runEnd (ops : List HostOp) (s : State) : RunEnd :=
  match hostRun ops s with
  | .next t =>
    match t.stepResult with
    | .ok => .final t
    | .fault r => .faulted r
  | .fault f => .stuck f
  | .refused r => .refused r

end Sys2Proof.Machine
end

