-- ==== Sys2Proof/Safety.lean ====
section
/-! DEFINITION. The states a run can be in, in the terms the claims use: the invariant of the engine, and
reachability by the host's operations and the platform's placing of a font, and successful runs. A state with a recorded fault is never the end of a
successful run, and of such a state the end of a run and the invariant read the record alone
(spec/60_exceptions.md R210). -/

namespace Sys2Proof.Machine

/-- The byte that the window of a font holds at `a`, and 0 outside it. -/
def fontByteAt (f : Font) (a : Nat) : Byte := if f.base ≤ a then f.bytes.getD (a - f.base) 0 else 0

/-- What holds of a machine that has not faulted. -/
structure State.Running (s : State) : Prop where
  /-- Memory is in its canonical form. -/
  memory : s.mem.wf = true
  /-- The guard region is 0, or holds the font the platform has placed and 0 around it: no engine access writes it and
  `load()` writes above it (spec/20_memory.md R41, R47, spec/70_reset_and_hazards.md R230, R232). -/
  guardRegion : (∀ a, a < 0x200 → s.mem.read a = 0) ∨
    ∃ f, s.cfg.font = some f ∧ ∀ a, a < 0x200 → s.mem.read a = fontByteAt f a
  /-- The flag register holds 0 or 1 (spec/10_state.md R12). -/
  flag : (s.reg flagReg).toNat ≤ 1
  /-- The largest `pc` any instruction leaves (spec/10_state.md R16). -/
  pcBound : s.pc.toNat ≤ 0x10FE
  /-- `CALL` pushes at most 0x1000 (spec/10_state.md R16). -/
  slotBound : ∀ (k : Nat) (h : k < 16), (s.stack[k]'h).toNat ≤ 0x1000
  /-- Slot 0 is never written (spec/10_state.md R20). -/
  slotZero : s.stack[0] = 0
  /-- spec/10_state.md R25. -/
  romLen : s.romLen ≤ 3584
  /-- Until a ROM is loaded the engine is as `init()` left it, but for a placed font (spec/70_reset_and_hazards.md
  R234). -/
  unloaded : s.loaded = false →
    s = { State.resetFor s.cfg with mem := s.mem, keySamples := s.keySamples, rndDraws := s.rndDraws } ∧
    ∀ a, 0x200 ≤ a → s.mem.read a = 0

/-- What holds of every state between two operations. Of a faulted machine it reads the fault record and nothing else
(spec/60_exceptions.md R210). -/
structure State.Inv (s : State) : Prop where
  running : s.fault.cause = .none → s.Running
  /-- Without a fault the record is clear (spec/10_state.md R26). -/
  faultClear : s.fault.cause = .none → s.fault = { cause := .none, pc := 0, ir := 0, addr := 0 }
  /-- The recorded `pc` is one that an instruction left (spec/10_state.md R16, R26). -/
  faultPc : s.fault.pc.toNat ≤ 0x10FE
  /-- The largest address an access computes: `I + 14`, not wrapped (spec/20_memory.md R48). -/
  faultAddr : s.fault.addr ≤ 0x1000D
  /-- The address that each cause records (spec/60_exceptions.md R201). -/
  faultRange : s.fault.cause = .memRange → 0x1000 ≤ s.fault.addr
  faultGuard : s.fault.cause = .memGuard → s.fault.addr < 0x200
  faultNoAddr : s.fault.cause ≠ .memRange → s.fault.cause ≠ .memGuard → s.fault.addr = 0

/-- The operations, from `s`, are a successful run that ends in `t` (spec/60_exceptions.md R210). A claim about where a
program ends is stated with it. -/
def SuccessfulRun (ops : List HostOp) (s t : State) : Prop := runEnd ops s = .final t

/-- The states the host can bring a machine to, in any order of operations (spec/45_keys_timers.md R179), from
`init()` with any parameters, where the platform places its font at any time before a load (log 10). -/
inductive Reachable : State → Prop where
  | init (cfg : Config) : Reachable (State.resetFor cfg)
  | op {s t : State} (op : HostOp) : Reachable s → hostOp op s = .next t → Reachable t
  | font {s : State} : Reachable s → s.loaded = false → Reachable s.placeFont

end Sys2Proof.Machine
end

