-- ==== Sys2Proof/Certificates/Slice0/Obligations.lean ====
section
/-! DEFINITION. The statements for the provers. Each docstring names the rule of spec/ that the statement formalises,
or, where it rests on a decision the spec marks as its own (D<n> of spec/92_eei_decisions.md), that decision. A
record update on the right of an equation is the frame: every field it does not name is unchanged. Of the state a fault
leaves the statements read the record alone (spec/60_exceptions.md R210), but for
`Obligations.FaultingStepWritesOnlyTheRecord`, which says that a fault is precise (log 15). -/

open Sys2Proof Sys2Proof.Machine

namespace Sys2Proof.Machine

/-- The instruction takes the fault with this cause and address: the record holds its `pc` and its word, as `encode` gives
it (spec/60_exceptions.md R201, R209; log 12). Of the faulted state nothing but the record is read (R210). -/
def takesRecord (i : Instr) (s : State) (c : Cause) (addr : Nat) : Prop :=
  ∃ t, exec i s = .next t ∧ t.fault = { cause := c, pc := s.pc, ir := encode i, addr := addr }

/-- The instruction takes a fault with this cause (R201, R210). -/
def takesFault (i : Instr) (s : State) (c : Cause) : Prop :=
  ∃ t, exec i s = .next t ∧ t.fault.cause = c

/-- Only general registers and `pc` may differ between `s` and `t`. -/
def sameButRegs (s t : State) : Prop := { t with v := s.v, pc := s.pc } = s

/-- Whether the sprite of `n` rows at `I`, drawn at column `V[x]`, row `V[y]`, has a set bit on cell `(r, c)`: the cell
is `dr` rows below and `dc` columns right of the top-left pixel, counted with wrap-around
(spec/44_display.md R161). -/
def spriteOn (s : State) (x y : Reg) (n : Nibble) (r : Fin 32) (c : Fin 64) : Bool :=
  let dr := (r.val + 32 - (s.reg y).toNat % 32) % 32
  let dc := (c.val + 64 - (s.reg x).toNat % 64) % 64
  decide (dr < n.toNat) && decide (dc < 8) && (s.mem.read (s.index.toNat + dr)).getLsbD (7 - dc)

/-- A data read of the byte at `a` raises nothing: it lies in program space, or in the window of a supplied font
(spec/20_memory.md R46, R47). -/
def readable (s : State) (a : Nat) : Prop :=
  a ≤ 0xFFF ∧ (0x200 ≤ a ∨ ∃ f ∈ s.cfg.font, f.base ≤ a ∧ a < f.base + f.bytes.length)

/-- Every byte of the sprite is readable; with height 0 there is none (spec/44_display.md R161). -/
def spriteReadable (s : State) (n : Nibble) : Prop := ∀ k, k < n.toNat → readable s (s.index.toNat + k)

/-- The data access of an instruction at `I`: its kind and its length in bytes (R161, R143 to R145). -/
def dataAccess : Instr → Option (Access × Nat)
  | .drw _ _ n => some (.read, n.toNat)
  | .ldBV _ => some (.write, 3)
  | .ldMIV x => some (.write, x.toNat + 1)
  | .ldVMI x => some (.read, x.toNat + 1)
  | _ => none

/-- A data access of the byte at `a` raises nothing (spec/20_memory.md R46, R47). -/
def accessible (s : State) : Access → Nat → Prop
  | .read, a => readable s a
  | .write, a => 0x200 ≤ a ∧ a ≤ 0xFFF
  | .fetch, a => 0x200 ≤ a ∧ a ≤ 0xFFF

/-- The calls of a list of targets one after another. -/
def callAll : List Addr12 → State → Host.Outcome State Fault Refusal
  | [], s => .next s
  | a :: as, s =>
    match exec (.call a) s with
    | .next t => callAll as t
    | .fault f => .fault f
    | .refused r => .refused r

end Sys2Proof.Machine

/-! ## Encoding (spec/30_encoding.md) -/

/-- Decode and encode agree on every instruction, at every value of every field (section 4, R65), the ignored nibble of
families 5 and 9 among the fields, as the model keeps it (R67, log 13). -/
def Obligations.EncodedInstructionDecodesBack : Prop :=
  ∀ (i : Instr) (rest : List Byte), i.wellFormed = true →
    decodeWord (encode i) = .ok i ∧ decode (wordBytes (encode i) ++ rest) = .ok (i, rest)

/-- A word that decodes is the word of the instruction it decodes to, and the instruction is well-formed (section 4;
R71). For families 5 and 9 this is the model's choice: their low nibble, which the machine ignores and the assembler
emits as 0 (R67), is kept as an operand that no meaning reads (log 13). -/
def Obligations.DecodedWordEncodesBack : Prop :=
  ∀ (w : Word) (i : Instr), decodeWord w = .ok i → encode i = w ∧ i.wellFormed = true

/-- R69 (the spec's decision D6): the words that decode to no instruction are exactly these. -/
def Obligations.IllegalWordsAreExactlyThese : Prop :=
  ∀ w : Word, decodeWord w = .error (.illegalInstruction w) ↔
    (w.toNat / 0x1000 = 0x8 ∧ w.toNat % 0x10 ∈ [0x8, 0x9, 0xA, 0xB, 0xC, 0xD, 0xF]) ∨
    (w.toNat / 0x1000 = 0xE ∧ w.toNat % 0x100 ∉ [0x9E, 0xA1]) ∨
    (w.toNat / 0x1000 = 0xF ∧ w.toNat % 0x100 ∉ [0x07, 0x0A, 0x15, 0x18, 0x1E, 0x29, 0x33, 0x55, 0x65])

/-- R100 (and the decoding of R66): SYS changes nothing but `pc`; its words are those of family 0 that are neither of the
two fixed words. -/
def Obligations.FamilyZeroIsClsRetOrNothing : Prop :=
  decodeWord 0x00E0#16 = .ok .cls ∧ decodeWord 0x00EE#16 = .ok .ret ∧
  (∀ w : Word, w.toNat < 0x1000 → w ≠ 0x00E0#16 → w ≠ 0x00EE#16 →
    decodeWord w = .ok (.sys (BitVec.ofNat 12 w.toNat))) ∧
  (∀ (nnn : Addr12) (s : State), exec (.sys nnn) s = .next { s with pc := s.pc + 2 })

/-- Sanity: words written out from rows of R65, of eight of the families. That the term for 0x5127 holds the low nibble 7
is the model's choice: the row of R65 ignores that nibble (R67), the model keeps it as an operand that no meaning reads
(log 13). -/
def Obligations.TableWordsDecode : Prop :=
  decodeWord 0x00EE#16 = .ok .ret ∧ decodeWord 0x1ABC#16 = .ok (.jp 0xABC#12) ∧
  decodeWord 0x5127#16 = .ok (.seVV 1#4 2#4 7#4) ∧ decodeWord 0x6A2C#16 = .ok (.ldVK 10#4 0x2C#8) ∧
  decodeWord 0x8127#16 = .ok (.subn 1#4 2#4) ∧ decodeWord 0xD12F#16 = .ok (.drw 1#4 2#4 15#4) ∧
  decodeWord 0xE1A1#16 = .ok (.sknp 1#4) ∧ decodeWord 0xF265#16 = .ok (.ldVMI 2#4) ∧
  decodeTableWord 16 0xF20A = some (.ldVKey 2#4)

/-! ## The step (spec/40_step_cycle.md, spec/60_exceptions.md) -/

/-- When a step is enabled, the fetch passes and the big-endian word at `pc` decodes, the step is the meaning of that
instruction at that state (section 3, R89); the meaning itself advances `pc`. -/
def Obligations.StepRunsTheDecodedInstruction : Prop :=
  ∀ (s : State) (i : Instr), s.loaded = true → s.fault.cause = .none →
    0x200 ≤ s.pc.toNat → s.pc.toNat ≤ 0xFFE →
    decodeWord (s.mem.read s.pc.toNat ++ s.mem.read (s.pc.toNat + 1)) = .ok i →
    step s = exec i s

/-- R80, R235 (the spec's decision D19): a step is stuck exactly when no ROM is loaded or a fault is recorded; otherwise it
answers a next state, and no instruction is refused; a second `load` is stuck. -/
def Obligations.StepIsStuckExactlyWhenNotEnabled : Prop :=
  (∀ s : State, s.loaded = false → step s = .fault .notLoaded) ∧
  (∀ s : State, s.loaded = true → s.fault.cause ≠ .none → step s = .fault .halted) ∧
  (∀ s : State, s.loaded = true → s.fault.cause = .none → ∃ t, step s = .next t) ∧
  (∀ (i : Instr) (s : State), ∃ t, exec i s = .next t) ∧
  (∀ (bytes : List Byte) (s : State), s.loaded = true → hostOp (.load bytes) s = .fault .alreadyLoaded)

/-- R81 (the spec's decisions D4, D5): the fetch faults below 0x200 and above 0xFFE, with the lowest failing address,
and records no word. -/
def Obligations.FetchOutsideProgramSpaceFaults : Prop :=
  ∀ s : State, s.loaded = true → s.fault.cause = .none →
    (s.pc.toNat < 0x200 →
      ∃ t, step s = .next t ∧ t.fault = { cause := .memGuard, pc := s.pc, ir := 0, addr := s.pc.toNat }) ∧
    (s.pc.toNat = 0xFFF →
      ∃ t, step s = .next t ∧ t.fault = { cause := .memRange, pc := s.pc, ir := 0, addr := 0x1000 }) ∧
    (0x1000 ≤ s.pc.toNat →
      ∃ t, step s = .next t ∧ t.fault = { cause := .memRange, pc := s.pc, ir := 0, addr := s.pc.toNat })

/-- R207 (the spec's decision D6): a fetched word that decodes to nothing faults, and the record holds the word. -/
def Obligations.IllegalWordFaults : Prop :=
  ∀ (s : State) (e : DecodeError), s.loaded = true → s.fault.cause = .none →
    0x200 ≤ s.pc.toNat → s.pc.toNat ≤ 0xFFE →
    decodeWord (s.mem.read s.pc.toNat ++ s.mem.read (s.pc.toNat + 1)) = .error e →
    ∃ t, step s = .next t ∧ t.fault =
      { cause := .illegalInstruction, pc := s.pc
        ir := s.mem.read s.pc.toNat ++ s.mem.read (s.pc.toNat + 1), addr := 0 }

/-- R87, R209 and the first sentence of R210 (the spec's decisions D8, D26): a faulting step writes the record and
nothing else; the record holds the address and the word of the faulting instruction, or 0 for the word when the fetch
faulted. And every instruction either leaves the record as it was or writes it and nothing else. This is the one
statement that reads a faulted state beyond `fault`: it says that faults are precise (log 15). -/
def Obligations.FaultingStepWritesOnlyTheRecord : Prop :=
  (∀ s t : State, step s = .next t → t.fault.cause ≠ .none →
    t = { s with fault := t.fault } ∧ t.fault.pc = s.pc ∧
    (0x200 ≤ s.pc.toNat ∧ s.pc.toNat ≤ 0xFFE →
      t.fault.ir = s.mem.read s.pc.toNat ++ s.mem.read (s.pc.toNat + 1)) ∧
    (¬ (0x200 ≤ s.pc.toNat ∧ s.pc.toNat ≤ 0xFFE) → t.fault.ir = 0) ∧ t.stepResult = .fault t.fault) ∧
  (∀ (i : Instr) (s t : State), exec i s = .next t →
    t.fault = s.fault ∨
    (t = { s with fault := t.fault } ∧ t.fault.cause ≠ .none ∧ t.fault.pc = s.pc ∧ t.fault.ir = encode i))

/-- R85, R211 (the spec's decisions D1, D8, D9): an instruction with a tested register field of 15 takes REG_INDEX,
whatever its own condition would be; and the fields tested are those of the table of R85, the `y` of the shifts among
them, in the order `x`, `y`. -/
def Obligations.RegisterFifteenFaultsFirst : Prop :=
  (∀ (i : Instr) (s : State), flagReg ∈ testedRegs i → takesRecord i s .regIndex 0) ∧
  (∀ nnn : Addr12, testedRegs .cls = [] ∧ testedRegs .ret = [] ∧ testedRegs (.sys nnn) = [] ∧
    testedRegs (.jp nnn) = [] ∧ testedRegs (.call nnn) = [] ∧ testedRegs (.ldI nnn) = [] ∧
    testedRegs (.jpV0 nnn) = []) ∧
  (∀ (x : Reg) (kk : Byte), testedRegs (.seVK x kk) = [x] ∧ testedRegs (.sneVK x kk) = [x] ∧
    testedRegs (.ldVK x kk) = [x] ∧ testedRegs (.addVK x kk) = [x] ∧ testedRegs (.rnd x kk) = [x]) ∧
  (∀ x : Reg, testedRegs (.skp x) = [x] ∧ testedRegs (.sknp x) = [x] ∧ testedRegs (.ldVDT x) = [x] ∧
    testedRegs (.ldVKey x) = [x] ∧ testedRegs (.ldDTV x) = [x] ∧ testedRegs (.ldSTV x) = [x] ∧
    testedRegs (.addIV x) = [x] ∧ testedRegs (.ldFV x) = [x] ∧ testedRegs (.ldBV x) = [x] ∧
    testedRegs (.ldMIV x) = [x] ∧ testedRegs (.ldVMI x) = [x]) ∧
  (∀ x y : Reg, testedRegs (.ldVV x y) = [x, y] ∧ testedRegs (.or x y) = [x, y] ∧ testedRegs (.and x y) = [x, y] ∧
    testedRegs (.xor x y) = [x, y] ∧ testedRegs (.addVV x y) = [x, y] ∧ testedRegs (.sub x y) = [x, y] ∧
    testedRegs (.shr x y) = [x, y] ∧ testedRegs (.subn x y) = [x, y] ∧ testedRegs (.shl x y) = [x, y]) ∧
  (∀ (x y : Reg) (n : Nibble), testedRegs (.seVV x y n) = [x, y] ∧ testedRegs (.sneVV x y n) = [x, y] ∧
    testedRegs (.drw x y n) = [x, y]) ∧
  (∀ (kk : Byte) (s : State), takesFault (.rnd 15#4 kk) s .regIndex ∧ takesFault (.ldVKey 15#4) s .regIndex ∧
    takesFault (.addIV 15#4) s .regIndex)

/-- R201 (the spec's decisions D3 to D6, D8, D10): the numeric codes of the causes, and exactly when an instruction
raises each. The two address causes are raised exactly when the fields are in range and a byte of the instruction's data
access is above 0xFFF, or is below 0x200 and not open to it (R46, R47); no instruction is illegal once it decodes. -/
def Obligations.CausesAreRaisedAsTheTableSays : Prop :=
  (Cause.code .none = 0 ∧ Cause.code .regIndex = 1 ∧ Cause.code .stackOverflow = 2 ∧ Cause.code .stackUnderflow = 3 ∧
    Cause.code .memRange = 4 ∧ Cause.code .memGuard = 5 ∧ Cause.code .illegalInstruction = 6 ∧
    Cause.code .noFont = 7) ∧
  (∀ (i : Instr) (s t : State), s.fault.cause = .none → exec i s = .next t →
    (t.fault.cause = .regIndex ↔ flagReg ∈ testedRegs i) ∧
    (t.fault.cause = .stackOverflow ↔ s.sp.val = 15 ∧ ∃ a, i = .call a) ∧
    (t.fault.cause = .stackUnderflow ↔ s.sp.val = 0 ∧ i = .ret) ∧
    (t.fault.cause = .noFont ↔ s.cfg.font = none ∧ ∃ x, x ≠ 15#4 ∧ i = .ldFV x) ∧
    (t.fault.cause = .memRange ↔ flagReg ∉ testedRegs i ∧ ∃ kind len k, dataAccess i = some (kind, len) ∧ k < len ∧
      s.index.toNat + k > 0xFFF) ∧
    (t.fault.cause = .memGuard ↔ flagReg ∉ testedRegs i ∧ ∃ kind len k, dataAccess i = some (kind, len) ∧ k < len ∧
      s.index.toNat + k < 0x200 ∧ ¬ accessible s kind (s.index.toNat + k)) ∧
    t.fault.cause ≠ .illegalInstruction)

/-! ## Control transfer (spec/41_control_flow.md) -/

/-- R102. -/
def Obligations.JumpLoadsPc : Prop :=
  ∀ (nnn : Addr12) (s : State), exec (.jp nnn) s = .next { s with pc := BitVec.ofNat 16 nnn.toNat }

/-- R103: the advanced `pc` goes to the slot at the incremented pointer; a call at `sp = 15` takes STACK_OVERFLOW. That
`sp` then stays 15 is R87, as in every fault: `Obligations.FaultingStepWritesOnlyTheRecord`. -/
def Obligations.CallPushesTheReturnAddress : Prop :=
  (∀ (nnn : Addr12) (s : State) (h : s.sp.val + 1 < 16), exec (.call nnn) s = .next { s with
    stack := s.stack.set (s.sp.val + 1) (s.pc + 2) h
    sp := ⟨s.sp.val + 1, h⟩
    pc := BitVec.ofNat 16 nnn.toNat }) ∧
  (∀ (nnn : Addr12) (s : State), s.sp.val = 15 → takesRecord (.call nnn) s .stackOverflow 0)

/-- R101, with the spec's decision D3 for the empty stack. -/
def Obligations.ReturnPopsTheReturnAddress : Prop :=
  (∀ s : State, 0 < s.sp.val → ∃ t, exec .ret s = .next t ∧ t.pc = s.stack[s.sp.val] ∧
    t.sp.val = s.sp.val - 1 ∧ { t with pc := s.pc, sp := s.sp } = s) ∧
  (∀ s : State, s.sp.val = 0 → takesRecord .ret s .stackUnderflow 0)

/-- R104, R105: skips on an immediate; a taken skip leaves `pc` at `a + 4`. -/
def Obligations.SkipsComparingAnImmediate : Prop :=
  (∀ (x : Reg) (kk : Byte) (s : State), x ≠ 15#4 →
    exec (.seVK x kk) s = .next { s with pc := if s.reg x = kk then s.pc + 4 else s.pc + 2 } ∧
    exec (.sneVK x kk) s = .next { s with pc := if s.reg x = kk then s.pc + 2 else s.pc + 4 }) ∧
  (∀ (kk : Byte) (s : State), takesFault (.seVK 15#4 kk) s .regIndex ∧ takesFault (.sneVK 15#4 kk) s .regIndex)

/-- R106, R107: skips on two registers, whatever the ignored low nibble (the spec's decision D7). -/
def Obligations.SkipsComparingRegisters : Prop :=
  (∀ (x y : Reg) (n : Nibble) (s : State), x ≠ 15#4 → y ≠ 15#4 →
    exec (.seVV x y n) s = .next { s with pc := if s.reg x = s.reg y then s.pc + 4 else s.pc + 2 } ∧
    exec (.sneVV x y n) s = .next { s with pc := if s.reg x = s.reg y then s.pc + 2 else s.pc + 4 }) ∧
  (∀ (x y : Reg) (n : Nibble) (s : State), x = 15#4 ∨ y = 15#4 →
    takesFault (.seVV x y n) s .regIndex ∧ takesFault (.sneVV x y n) s .regIndex)

/-- R108 (the spec's decision D15: the sum is not reduced to 12 bits): the address jumped to is the integer sum. -/
def Obligations.JumpV0AddsRegisterZero : Prop :=
  ∀ (nnn : Addr12) (s : State), ∃ t, exec (.jpV0 nnn) s = .next t ∧
    t.pc.toNat = nnn.toNat + (s.reg 0#4).toNat ∧ { t with pc := s.pc } = s

/-- R101, R103 and the property quoted in R101: a call and then a return restore `pc` to the instruction after the call
and `sp` to what it was. -/
def Obligations.CallThenReturnComesBack : Prop :=
  ∀ (nnn : Addr12) (s : State), s.sp.val < 15 →
    ∃ t u, exec (.call nnn) s = .next t ∧ exec .ret t = .next u ∧ u.pc = s.pc + 2 ∧ u.sp = s.sp ∧
      ∀ (k : Nat) (h : k < 16), k ≤ s.sp.val → u.stack[k] = s.stack[k]

/-- R20 (the spec's decision D2, spec/90_conflicts.md C1): from an empty stack fifteen nested calls succeed, whatever
their targets, and a sixteenth takes STACK_OVERFLOW. -/
def Obligations.FifteenNestedCallsSucceed : Prop :=
  (∀ (targets : List Addr12) (s : State), s.sp.val = 0 → targets.length ≤ 15 →
    ∃ t, callAll targets s = .next t ∧ t.sp.val = targets.length ∧ t.fault = s.fault) ∧
  (∀ (targets : List Addr12) (a : Addr12) (s : State), s.sp.val = 0 → targets.length = 15 →
    ∃ t, callAll targets s = .next t ∧ takesRecord (.call a) t .stackOverflow 0)

/-! ## Register loads, arithmetic and logic (spec/42_alu.md) -/

/-- R121, R122: the immediate forms; neither writes the flag. -/
def Obligations.ImmediateLoadAndAdd : Prop :=
  (∀ (x : Reg) (kk : Byte) (s : State), x ≠ 15#4 →
    exec (.ldVK x kk) s = .next { s.setReg x kk with pc := s.pc + 2 } ∧
    exec (.addVK x kk) s =
      .next { s.setReg x (BitVec.ofNat 8 ((s.reg x).toNat + kk.toNat)) with pc := s.pc + 2 }) ∧
  (∀ (kk : Byte) (s : State), takesFault (.ldVK 15#4 kk) s .regIndex ∧ takesFault (.addVK 15#4 kk) s .regIndex)

/-- R123 to R126: copy and the logic operations; none writes the flag. -/
def Obligations.CopyAndLogicWriteNoFlag : Prop :=
  (∀ (x y : Reg) (s : State), x ≠ 15#4 → y ≠ 15#4 →
    exec (.ldVV x y) s = .next { s.setReg x (s.reg y) with pc := s.pc + 2 } ∧
    exec (.or x y) s = .next { s.setReg x (s.reg x ||| s.reg y) with pc := s.pc + 2 } ∧
    exec (.and x y) s = .next { s.setReg x (s.reg x &&& s.reg y) with pc := s.pc + 2 } ∧
    exec (.xor x y) s = .next { s.setReg x (s.reg x ^^^ s.reg y) with pc := s.pc + 2 }) ∧
  (∀ (x y : Reg) (s : State), x = 15#4 ∨ y = 15#4 →
    takesFault (.ldVV x y) s .regIndex ∧ takesFault (.or x y) s .regIndex ∧
    takesFault (.and x y) s .regIndex ∧ takesFault (.xor x y) s .regIndex)

/-- R127: the wrapped sum, and the carry out as the flag. -/
def Obligations.AddSetsCarry : Prop :=
  (∀ (x y : Reg) (s : State), x ≠ 15#4 → y ≠ 15#4 →
    ∃ t, exec (.addVV x y) s = .next t ∧
      (t.reg x).toNat = ((s.reg x).toNat + (s.reg y).toNat) % 256 ∧
      t.reg 15#4 = (if (s.reg x).toNat + (s.reg y).toNat > 255 then 1 else 0) ∧
      (∀ r : Reg, r ≠ x → r ≠ 15#4 → t.reg r = s.reg r) ∧ t.pc = s.pc + 2 ∧ sameButRegs s t) ∧
  (∀ (x y : Reg) (s : State), x = 15#4 ∨ y = 15#4 → takesFault (.addVV x y) s .regIndex)

/-- R128: the wrapped difference; the flag is 1 exactly when the first operand is strictly greater. -/
def Obligations.SubSetsStrictlyGreater : Prop :=
  (∀ (x y : Reg) (s : State), x ≠ 15#4 → y ≠ 15#4 →
    ∃ t, exec (.sub x y) s = .next t ∧
      (t.reg x).toNat = ((s.reg x).toNat + 256 - (s.reg y).toNat) % 256 ∧
      t.reg 15#4 = (if (s.reg x).toNat > (s.reg y).toNat then 1 else 0) ∧
      (∀ r : Reg, r ≠ x → r ≠ 15#4 → t.reg r = s.reg r) ∧ t.pc = s.pc + 2 ∧ sameButRegs s t) ∧
  (∀ (x y : Reg) (s : State), x = 15#4 ∨ y = 15#4 → takesFault (.sub x y) s .regIndex)

/-- R130: the reversed difference, into `V[x]`. -/
def Obligations.SubnSetsStrictlyGreater : Prop :=
  (∀ (x y : Reg) (s : State), x ≠ 15#4 → y ≠ 15#4 →
    ∃ t, exec (.subn x y) s = .next t ∧
      (t.reg x).toNat = ((s.reg y).toNat + 256 - (s.reg x).toNat) % 256 ∧
      t.reg 15#4 = (if (s.reg y).toNat > (s.reg x).toNat then 1 else 0) ∧
      (∀ r : Reg, r ≠ x → r ≠ 15#4 → t.reg r = s.reg r) ∧ t.pc = s.pc + 2 ∧ sameButRegs s t) ∧
  (∀ (x y : Reg) (s : State), x = 15#4 ∨ y = 15#4 → takesFault (.subn x y) s .regIndex)

/-- R129, R131 (that the unused `y` of 15 faults is the spec's decision D1): `V[x]` is shifted in place by one, the flag
is the bit shifted out. -/
def Obligations.ShiftsMoveOneBitOut : Prop :=
  (∀ (x y : Reg) (s : State), x ≠ 15#4 → y ≠ 15#4 →
    ∃ t, exec (.shr x y) s = .next t ∧
      (t.reg x).toNat = (s.reg x).toNat / 2 ∧ (t.reg 15#4).toNat = (s.reg x).toNat % 2 ∧
      (∀ r : Reg, r ≠ x → r ≠ 15#4 → t.reg r = s.reg r) ∧ t.pc = s.pc + 2 ∧ sameButRegs s t) ∧
  (∀ (x y : Reg) (s : State), x ≠ 15#4 → y ≠ 15#4 →
    ∃ t, exec (.shl x y) s = .next t ∧
      (t.reg x).toNat = 2 * (s.reg x).toNat % 256 ∧ (t.reg 15#4).toNat = (s.reg x).toNat / 128 ∧
      (∀ r : Reg, r ≠ x → r ≠ 15#4 → t.reg r = s.reg r) ∧ t.pc = s.pc + 2 ∧ sameButRegs s t) ∧
  (∀ (x y : Reg) (s : State), x = 15#4 ∨ y = 15#4 →
    takesFault (.shr x y) s .regIndex ∧ takesFault (.shl x y) s .regIndex)

/-- R132 (the spec's decision D13: the byte is under no law): the result is a byte masked with the immediate, for every
byte `r` the source may supply; `exec` supplies the next free byte. -/
def Obligations.RandomByteIsMasked : Prop :=
  (∀ (r : Byte) (x : Reg) (kk : Byte) (s : State), x ≠ 15#4 →
    rndWith r x kk s = .next { s.setReg x (r &&& kk) with pc := s.pc + 2, rndDraws := s.rndDraws + 1 }) ∧
  (∀ (x : Reg) (kk : Byte) (s : State), x ≠ 15#4 → ∃ t, exec (.rnd x kk) s = .next t ∧
    t.reg x &&& ~~~kk = 0 ∧ (∀ r : Reg, r ≠ x → t.reg r = s.reg r) ∧ t.pc = s.pc + 2 ∧
    { t with v := s.v, pc := s.pc, rndDraws := s.rndDraws } = s) ∧
  (∀ (x : Reg) (kk : Byte) (s : State),
    exec (.rnd x kk) s = rndWith (Config.randomByte s.rndDraws) x kk s)

/-! ## Index register and memory transfers (spec/43_index_memory.md, spec/20_memory.md) -/

/-- R140. -/
def Obligations.LoadIndexImmediate : Prop :=
  ∀ (nnn : Addr12) (s : State),
    exec (.ldI nnn) s = .next { s with index := BitVec.ofNat 16 nnn.toNat, pc := s.pc + 2 }

/-- R141 (the spec's decision D14: modulo 65536): no flag is written, also when the sum wraps. -/
def Obligations.AddToIndexWrapsSilently : Prop :=
  ∀ (x : Reg) (s : State), x ≠ 15#4 → ∃ t, exec (.addIV x) s = .next t ∧
    t.index.toNat = (s.index.toNat + (s.reg x).toNat) % 65536 ∧ t.pc = s.pc + 2 ∧
    { t with index := s.index, pc := s.pc } = s

/-- R142 (the spec's decision D10): without a font NO_FONT is taken; with one, `I` is the glyph address the platform
gives. -/
def Obligations.GlyphAddressOrNoFont : Prop :=
  (∀ (x : Reg) (s : State), x ≠ 15#4 → s.cfg.font = none → takesRecord (.ldFV x) s .noFont 0) ∧
  (∀ (x : Reg) (f : Font) (s : State), x ≠ 15#4 → s.cfg.font = some f →
    exec (.ldFV x) s = .next { s with index := f.glyphAddr[(s.reg x).toNat], pc := s.pc + 2 })

/-- R143: the three decimal digits, most significant first, and every other byte as before. -/
def Obligations.DecimalDigitsAreStored : Prop :=
  (∀ (x : Reg) (s : State), x ≠ 15#4 → s.mem.wf = true → 0x200 ≤ s.index.toNat → s.index.toNat + 2 ≤ 0xFFF →
    ∃ t, exec (.ldBV x) s = .next t ∧
      (t.mem.read s.index.toNat).toNat = (s.reg x).toNat / 100 ∧
      (t.mem.read (s.index.toNat + 1)).toNat = (s.reg x).toNat / 10 % 10 ∧
      (t.mem.read (s.index.toNat + 2)).toNat = (s.reg x).toNat % 10 ∧
      (∀ a, a < s.index.toNat ∨ s.index.toNat + 2 < a → t.mem.read a = s.mem.read a) ∧
      t.pc = s.pc + 2 ∧ { t with mem := s.mem, pc := s.pc } = s) ∧
  (∀ (x : Reg) (s : State), x ≠ 15#4 → s.index.toNat < 0x200 → takesFault (.ldBV x) s .memGuard) ∧
  (∀ (x : Reg) (s : State), x ≠ 15#4 → s.index.toNat + 2 > 0xFFF → takesFault (.ldBV x) s .memRange) ∧
  (∀ s : State, takesFault (.ldBV 15#4) s .regIndex)

/-- R144: `V[0]` to `V[x]` to the `x + 1` bytes from `I`, and every other byte as before. -/
def Obligations.RegistersAreStored : Prop :=
  (∀ (x : Reg) (s : State), x ≠ 15#4 → s.mem.wf = true → 0x200 ≤ s.index.toNat →
    s.index.toNat + x.toNat ≤ 0xFFF →
    ∃ t, exec (.ldMIV x) s = .next t ∧
      (∀ k, k ≤ x.toNat → t.mem.read (s.index.toNat + k) = s.reg (BitVec.ofNat 4 k)) ∧
      (∀ a, a < s.index.toNat ∨ s.index.toNat + x.toNat < a → t.mem.read a = s.mem.read a) ∧
      t.pc = s.pc + 2 ∧ { t with mem := s.mem, pc := s.pc } = s) ∧
  (∀ (x : Reg) (s : State), x ≠ 15#4 → s.index.toNat < 0x200 → takesFault (.ldMIV x) s .memGuard) ∧
  (∀ (x : Reg) (s : State), x ≠ 15#4 → s.index.toNat + x.toNat > 0xFFF → takesFault (.ldMIV x) s .memRange) ∧
  (∀ s : State, takesFault (.ldMIV 15#4) s .regIndex)

/-- R145: the `x + 1` bytes from `I` to `V[0]` to `V[x]`, and every register above `x`, the flag among them, as before;
MEM_GUARD when a byte lies below 0x200 and, where the platform supplies a font, outside its window (R47). -/
def Obligations.RegistersAreLoaded : Prop :=
  (∀ (x : Reg) (s : State), x ≠ 15#4 → (∀ k, k ≤ x.toNat → readable s (s.index.toNat + k)) →
    ∃ t, exec (.ldVMI x) s = .next t ∧
      (∀ k, k ≤ x.toNat → t.reg (BitVec.ofNat 4 k) = s.mem.read (s.index.toNat + k)) ∧
      (∀ r : Reg, x.toNat < r.toNat → t.reg r = s.reg r) ∧ t.pc = s.pc + 2 ∧ sameButRegs s t) ∧
  (∀ (x : Reg) (k : Nat) (s : State), x ≠ 15#4 → k ≤ x.toNat → s.index.toNat + k < 0x200 →
    ¬ readable s (s.index.toNat + k) → takesFault (.ldVMI x) s .memGuard) ∧
  (∀ (x : Reg) (s : State), x ≠ 15#4 → s.index.toNat + x.toNat > 0xFFF → takesFault (.ldVMI x) s .memRange) ∧
  (∀ s : State, takesFault (.ldVMI 15#4) s .regIndex)

/-- The round trip quoted in R145 and R146 (the spec's decision D16: `I` is unchanged): a block store and then a block
load of the same registers leave every register as it was; and whatever all registers are overwritten with in between,
the load gives `V[0]` to `V[x]` back and leaves the others (spec/95_test_vectors.md im16). -/
def Obligations.BlockStoreThenLoadRoundTrips : Prop :=
  ∀ (x : Reg) (s : State), x ≠ 15#4 → s.mem.wf = true → 0x200 ≤ s.index.toNat →
    s.index.toNat + x.toNat ≤ 0xFFF →
    (∃ t u, exec (.ldMIV x) s = .next t ∧ exec (.ldVMI x) t = .next u ∧ (∀ r : Reg, u.reg r = s.reg r) ∧
      u.index = s.index) ∧
    (∃ t, exec (.ldMIV x) s = .next t ∧ ∀ w : Vector Byte 16, ∃ u, exec (.ldVMI x) { t with v := w } = .next u ∧
      (∀ r : Reg, r.toNat ≤ x.toNat → u.reg r = s.reg r) ∧
      (∀ r : Reg, x.toNat < r.toNat → u.reg r = ({ t with v := w } : State).reg r) ∧ u.index = s.index)

/-- R46 to R49 (the spec's decisions D4, D5, D10, D26): on every machine the record of a data access holds the lowest
address that fails, an integer that is not wrapped, and the cause of that address. Past the top this is MEM_RANGE, with
or without a font; below program space it is MEM_GUARD at `I` for every store, and for the reads where there is no
font. -/
def Obligations.DataFaultReportsLowestAddress : Prop :=
  ∀ (i : Instr) (kind : Access) (len : Nat) (s : State), flagReg ∉ testedRegs i → dataAccess i = some (kind, len) →
    (∀ k, k < len → (∀ j, j < k → accessible s kind (s.index.toNat + j)) → ¬ accessible s kind (s.index.toNat + k) →
      takesRecord i s (if s.index.toNat + k < 0x200 then .memGuard else .memRange) (s.index.toNat + k)) ∧
    (0 < len → 0x200 ≤ s.index.toNat → 0x1000 < s.index.toNat + len →
      takesRecord i s .memRange (max s.index.toNat 0x1000)) ∧
    (0 < len → s.index.toNat < 0x200 → kind = .write ∨ s.cfg.font = none →
      takesRecord i s .memGuard s.index.toNat)

/-- R47, R41 (the spec's decisions D5, D10): a supplied font's window opens the guard region to reads of its bytes, and to
nothing else. The platform's placing of its font (the model's `State.placeFont`, log 10) writes the bytes of the window
that lie in the guard region and changes nothing else; without a font it does nothing. -/
def Obligations.FontWindowOpensOnlyReads : Prop :=
  (∀ (s : State) (a : Nat), addressFault s.cfg .read a = none ↔ readable s a) ∧
  (∀ (x : Reg) (s : State), x ≠ 15#4 → s.index.toNat < 0x200 →
    takesRecord (.ldMIV x) s .memGuard s.index.toNat ∧ takesRecord (.ldBV x) s .memGuard s.index.toNat) ∧
  (∀ s : State, s.loaded = true → s.fault.cause = .none → s.pc.toNat < 0x200 →
    ∃ t, step s = .next t ∧ t.fault.cause = .memGuard) ∧
  (∀ s : State, s.cfg.font = none → s.placeFont = s) ∧
  (∀ (f : Font) (s : State), s.mem.wf = true → s.cfg.font = some f →
    (∀ (k : Nat) (h : k < f.bytes.length), f.base + k < 0x200 → s.placeFont.mem.read (f.base + k) = f.bytes[k]) ∧
    (∀ a, 0x200 ≤ a ∨ a < f.base ∨ f.base + f.bytes.length ≤ a → s.placeFont.mem.read a = s.mem.read a) ∧
    { s.placeFont with mem := s.mem } = s)

/-! ## Display (spec/44_display.md) -/

/-- R160: every cell off, `dirty` set always. -/
def Obligations.ClsClearsTheFramebuffer : Prop :=
  ∀ s : State, ∃ t, exec .cls s = .next t ∧ (∀ r c, t.fb.get r c = false) ∧ t.dirty = true ∧ t.pc = s.pc + 2 ∧
    { t with fb := s.fb, dirty := s.dirty, pc := s.pc } = s

/-- R161: the draw is the exclusive or of the sprite onto the framebuffer with wrap-around on both axes, the flag tells
whether a lit cell was erased, `I` advances by the height, `dirty` is set always; and the faults, MEM_GUARD
only for a byte outside the window of a supplied font (R47). -/
def Obligations.DrwXorsTheSprite : Prop :=
  (∀ (x y : Reg) (n : Nibble) (s : State), x ≠ 15#4 → y ≠ 15#4 → spriteReadable s n →
    ∃ t, exec (.drw x y n) s = .next t ∧
      (∀ r c, t.fb.get r c = (s.fb.get r c != spriteOn s x y n r c)) ∧
      ((∃ r c, s.fb.get r c = true ∧ spriteOn s x y n r c = true) → t.reg 15#4 = 1) ∧
      ((∀ r c, ¬ (s.fb.get r c = true ∧ spriteOn s x y n r c = true)) → t.reg 15#4 = 0) ∧
      (∀ r : Reg, r ≠ 15#4 → t.reg r = s.reg r) ∧
      t.index.toNat = (s.index.toNat + n.toNat) % 65536 ∧ t.dirty = true ∧ t.pc = s.pc + 2 ∧
      { t with fb := s.fb, v := s.v, index := s.index, dirty := s.dirty, pc := s.pc } = s) ∧
  (∀ (x y : Reg) (n : Nibble) (k : Nat) (s : State), x ≠ 15#4 → y ≠ 15#4 → k < n.toNat →
    s.index.toNat + k < 0x200 → ¬ readable s (s.index.toNat + k) → takesFault (.drw x y n) s .memGuard) ∧
  (∀ (x y : Reg) (n : Nibble) (s : State), x ≠ 15#4 → y ≠ 15#4 → 0 < n.toNat →
    s.index.toNat + n.toNat - 1 > 0xFFF → takesFault (.drw x y n) s .memRange) ∧
  (∀ (x y : Reg) (n : Nibble) (s : State), x = 15#4 ∨ y = 15#4 → takesFault (.drw x y n) s .regIndex)

/-- R162: drawing the same sprite twice at the same place, with `I` set back between, restores the framebuffer; the second
flag is 1 exactly when the first draw lit a cell. -/
def Obligations.DrawingTwiceRestores : Prop :=
  ∀ (x y : Reg) (n : Nibble) (s : State), x ≠ 15#4 → y ≠ 15#4 → spriteReadable s n →
    ∃ t u, exec (.drw x y n) s = .next t ∧ exec (.drw x y n) { t with index := s.index } = .next u ∧
      (∀ r c, u.fb.get r c = s.fb.get r c) ∧
      ((∃ r c, s.fb.get r c = false ∧ spriteOn s x y n r c = true) → u.reg 15#4 = 1) ∧
      ((∀ r c, ¬ (s.fb.get r c = false ∧ spriteOn s x y n r c = true)) → u.reg 15#4 = 0)

/-- R24, R163 (the reset value of `dirty`: the spec's decision D18): `render_ack()` clears `dirty` and nothing else, and
besides `init()` no other operation that leaves no fault clears it. -/
def Obligations.RenderAckAloneClearsDirty : Prop :=
  (∀ s : State, hostOp .renderAck s = .next { s with dirty := false }) ∧
  (∀ (op : HostOp) (s t : State), hostOp op s = .next t → t.fault.cause = .none →
    s.dirty = true → t.dirty = false → op = .renderAck ∨ op = .init)

/-! ## Keys and timers (spec/45_keys_timers.md) -/

/-- R170 to R172 (the spec's decision D11: a value of 16 or more names no key): the skips, for every value of `KEYS` and
as `exec` samples it; the stub provider of this build yields 0. -/
def Obligations.KeySkipsTestTheNamedKey : Prop :=
  (∀ (keys : Word) (x : Reg) (s : State), x ≠ 15#4 →
    skpWith keys x s = .next { s with
      pc := if (s.reg x).toNat < 16 ∧ keys.getLsbD (s.reg x).toNat = true then s.pc + 4 else s.pc + 2
      keySamples := s.keySamples + 1 } ∧
    sknpWith keys x s = .next { s with
      pc := if (s.reg x).toNat < 16 ∧ keys.getLsbD (s.reg x).toNat = true then s.pc + 2 else s.pc + 4
      keySamples := s.keySamples + 1 }) ∧
  (∀ (x : Reg) (s : State), x ≠ 15#4 →
    exec (.skp x) s = .next { s with
      pc := if (s.reg x).toNat < 16 ∧ s.keysNow.getLsbD (s.reg x).toNat = true then s.pc + 4 else s.pc + 2
      keySamples := s.keySamples + 1 } ∧
    exec (.sknp x) s = .next { s with
      pc := if (s.reg x).toNat < 16 ∧ s.keysNow.getLsbD (s.reg x).toNat = true then s.pc + 2 else s.pc + 4
      keySamples := s.keySamples + 1 }) ∧
  (∀ s : State, s.cfg.keys = .stub → s.keysNow = 0)

/-- R173 (the spec's decision D12): the key wait in both modes, for every value of `KEYS`. With no key down in POLL_RETRY
mode the instruction stands at itself; of several keys the lowest is stored. -/
def Obligations.KeyWaitFollowsItsMode : Prop :=
  (∀ (x : Reg) (s : State), x ≠ 15#4 → s.cfg.keywait = .stubZero →
    exec (.ldVKey x) s = .next { s.setReg x 0 with pc := s.pc + 2 }) ∧
  (∀ (x : Reg) (s : State), x ≠ 15#4 → s.cfg.keywait = .pollRetry →
    ldVKeyWith 0 x s = .next { s with keySamples := s.keySamples + 1 }) ∧
  (∀ (keys : Word) (k : Nat) (x : Reg) (s : State), x ≠ 15#4 → s.cfg.keywait = .pollRetry →
    keys.getLsbD k = true → (∀ j, j < k → keys.getLsbD j = false) →
    ldVKeyWith keys x s =
      .next { s.setReg x (BitVec.ofNat 8 k) with pc := s.pc + 2, keySamples := s.keySamples + 1 }) ∧
  (∀ (x : Reg) (s : State), exec (.ldVKey x) s = ldVKeyWith s.keysNow x s)

/-- R174, R175, R176. -/
def Obligations.TimerMoves : Prop :=
  (∀ (x : Reg) (s : State), x ≠ 15#4 →
    exec (.ldVDT x) s = .next { s.setReg x s.dt with pc := s.pc + 2 } ∧
    exec (.ldDTV x) s = .next { s with dt := s.reg x, pc := s.pc + 2 } ∧
    exec (.ldSTV x) s = .next { s with st := s.reg x, pc := s.pc + 2 }) ∧
  (∀ s : State, takesFault (.ldVDT 15#4) s .regIndex ∧ takesFault (.ldDTV 15#4) s .regIndex ∧
    takesFault (.ldSTV 15#4) s .regIndex)

/-- R178 (that it is enabled in every state is the spec's decision D19): `k` ticks take `k` from each timer, never below
0, and change nothing else. -/
def Obligations.TicksCountDownToZero : Prop :=
  ∀ (k : Nat) (s : State), ∃ t, hostRun (List.replicate k .tick) s = .next t ∧
    t.dt.toNat = s.dt.toNat - k ∧ t.st.toNat = s.st.toNat - k ∧ { t with dt := s.dt, st := s.st } = s

/-- R21: the timers are 0 after `init()`; `tick()` takes 1 from each that is not 0; of the other operations that leave no
fault, only a step changes a timer, `DT` by LD DT,Vx and `ST` by LD ST,Vx; LD Vx,DT reads `DT`, and no instruction reads
`ST`: from two states that differ in `ST` alone it takes the same fault, or completes in two states that differ in `ST`
at most. -/
def Obligations.TimersMoveOnlyByTickOrLoad : Prop :=
  (State.reset.dt = 0 ∧ State.reset.st = 0) ∧
  (∀ s : State, hostOp .tick s = .next { s with
    dt := BitVec.ofNat 8 (s.dt.toNat - 1), st := BitVec.ofNat 8 (s.st.toNat - 1) }) ∧
  (∀ (op : HostOp) (s t : State), op ≠ .init → op ≠ .tick → hostOp op s = .next t →
    t.fault.cause = .none →
    (t.dt = s.dt ∨ ∃ x, op = .step ∧ decodeWord s.fetchWord = .ok (.ldDTV x) ∧ t.dt = s.reg x) ∧
    (t.st = s.st ∨ ∃ x, op = .step ∧ decodeWord s.fetchWord = .ok (.ldSTV x) ∧ t.st = s.reg x)) ∧
  (∀ (x : Reg) (s : State), x ≠ 15#4 → ∃ t, exec (.ldVDT x) s = .next t ∧ t.reg x = s.dt) ∧
  (∀ (i : Instr) (b : Byte) (s t : State), exec i s = .next t →
    ∃ t', exec i { s with st := b } = .next t' ∧ t'.fault = t.fault ∧
      (t.fault.cause = .none → { t' with st := 0 } = { t with st := 0 }))

/-! ## What each piece of state is written by (spec/10_state.md)

These are about instructions that complete. An instruction that faults writes nothing but the record:
`Obligations.FaultingStepWritesOnlyTheRecord`. -/

/-- R12 (that the logic operations write no flag is the spec's decision D17): only six instructions write the flag
register, and each that completes leaves it 0 or 1. -/
def Obligations.FlagIsWrittenBySixInstructions : Prop :=
  ∀ (i : Instr) (s t : State), exec i s = .next t → t.fault.cause = .none → t.reg flagReg = s.reg flagReg ∨
    (t.reg flagReg).toNat ≤ 1 ∧
      ((∃ x y, i = .addVV x y) ∨ (∃ x y, i = .sub x y) ∨ (∃ x y, i = .shr x y) ∨ (∃ x y, i = .subn x y) ∨
        (∃ x y, i = .shl x y) ∨ (∃ x y n, i = .drw x y n))

/-- R17 (the spec's decision D14): the writers of the index register. -/
def Obligations.IndexIsWrittenByFourInstructions : Prop :=
  ∀ (i : Instr) (s t : State), exec i s = .next t → t.fault.cause = .none → t.index = s.index ∨
    ((∃ a, i = .ldI a) ∨ (∃ x, i = .addIV x) ∨ (∃ x y n, i = .drw x y n) ∨ (∃ x, i = .ldFV x ∧ s.cfg.font.isSome))

/-- R18 to R20 (the spec's decisions D2, D27): only CALL writes a slot, at the new pointer and so never slot 0; only CALL
and RET move the pointer. -/
def Obligations.StackIsReachedByCallAndReturn : Prop :=
  ∀ (i : Instr) (s t : State), exec i s = .next t → t.fault.cause = .none →
    (t.stack = s.stack ∨ ∃ a, i = .call a) ∧ (t.sp = s.sp ∨ i = .ret ∨ ∃ a, i = .call a) ∧
    (∀ (k : Nat) (h : k < 16), k ≠ s.sp.val + 1 → t.stack[k] = s.stack[k]) ∧ t.stack[0] = s.stack[0]

/-- R23, R24 (the spec's decisions D18, D24): only CLS and DRW write the framebuffer or the dirty flag, and no step clears
the dirty flag. -/
def Obligations.FramebufferIsWrittenByClsAndDrw : Prop :=
  ∀ (i : Instr) (s t : State), exec i s = .next t → t.fault.cause = .none →
    (t.fb = s.fb ∧ t.dirty = s.dirty ∨ i = .cls ∨ ∃ x y n, i = .drw x y n) ∧ (s.dirty = true → t.dirty = true)

/-- R40, R41 (the guard region: the spec's decision D5): only LD B and LD [I] write memory, and no instruction changes a
byte of the guard region or outside the address space. -/
def Obligations.MemoryIsWrittenByTwoInstructions : Prop :=
  ∀ (i : Instr) (s t : State), s.mem.wf = true → exec i s = .next t → t.fault.cause = .none →
    (t.mem = s.mem ∨ (∃ x, i = .ldBV x) ∨ (∃ x, i = .ldMIV x)) ∧
    (∀ a, a < 0x200 ∨ 0x1000 ≤ a → t.mem.read a = s.mem.read a)

/-- R86: a step changes no register that its rule does not name, and never `loaded`, `rom_len` or the parameters. The
registers that may change are the first field of an instruction that writes one, `V[0]` to `V[x]` of the block load, and
the flag register. -/
def Obligations.UnnamedRegistersAreUnchanged : Prop :=
  ∀ (i : Instr) (s t : State), exec i s = .next t → t.fault.cause = .none →
    t.loaded = s.loaded ∧ t.romLen = s.romLen ∧ t.cfg = s.cfg ∧
    (∀ r : Reg, r ≠ flagReg → r ∉ (testedRegs i).take 1 → (∀ x, i = .ldVMI x → x.toNat < r.toNat) →
      t.reg r = s.reg r)

/-- R13: no instruction reads the flag register: from two states that differ in `V[15]` alone an instruction, and a step,
takes the same fault, or completes in two states that differ in `V[15]` at most. -/
def Obligations.FlagRegisterIsNeverRead : Prop :=
  (∀ (i : Instr) (b : Byte) (s t : State), exec i s = .next t →
    ∃ t', exec i (s.setReg flagReg b) = .next t' ∧ t'.fault = t.fault ∧
      (t.fault.cause = .none → ∀ c, t'.setReg flagReg c = t.setReg flagReg c)) ∧
  (∀ (b : Byte) (s t : State), step s = .next t →
    ∃ t', step (s.setReg flagReg b) = .next t' ∧ t'.fault = t.fault ∧
      (t.fault.cause = .none → ∀ c, t'.setReg flagReg c = t.setReg flagReg c))

/-- Self-modifying code (R52): after a block store the next step, if `pc` is at the first stored byte and two bytes or more
were stored, runs the instruction whose word is `V[0]`, `V[1]`. -/
def Obligations.StoredCodeIsFetched : Prop :=
  ∀ (x : Reg) (s t : State) (i : Instr), x ≠ 15#4 → 1 ≤ x.toNat → s.loaded = true → s.fault.cause = .none →
    s.mem.wf = true → 0x200 ≤ s.index.toNat → s.index.toNat + x.toNat ≤ 0xFFF → s.pc + 2 = s.index →
    decodeWord (s.reg 0#4 ++ s.reg 1#4) = .ok i → exec (.ldMIV x) s = .next t →
    step t = exec i t

/-! ## Reset, load and the invariant (spec/70_reset_and_hazards.md) -/

/-- R230 (`dirty`, `rom_len` and the fault record: the spec's decision D18): what reset leaves, with any parameters. All
of memory is 0, with a font too. -/
def Obligations.ResetLeavesTheTable : Prop :=
  (∀ cfg : Config,
    (∀ r : Reg, (State.resetFor cfg).reg r = 0) ∧ (State.resetFor cfg).pc = 0x200#16 ∧
    (State.resetFor cfg).index = 0 ∧ (State.resetFor cfg).sp.val = 0 ∧
    (∀ (k : Nat) (h : k < 16), (State.resetFor cfg).stack[k] = 0) ∧ (State.resetFor cfg).dt = 0 ∧
    (State.resetFor cfg).st = 0 ∧ (∀ a, (State.resetFor cfg).mem.read a = 0) ∧
    (∀ r c, (State.resetFor cfg).fb.get r c = false) ∧ (State.resetFor cfg).loaded = false ∧
    (State.resetFor cfg).dirty = false ∧ (State.resetFor cfg).romLen = 0 ∧
    (State.resetFor cfg).fault = { cause := .none, pc := 0, ir := 0, addr := 0 }) ∧
  State.reset = State.resetFor Config.thisBuild

/-- R230, R212 (the spec's decision D18): `init()` is enabled in every state and leaves the reset values; of all operations
it is the only one that changes a recorded fault. All 4096 bytes are then 0, whatever the parameters and whatever was
placed before. R210 (the spec's decision D8): from a recorded fault a run without `init()` ends in that record alone, and
no successful run ends with a fault. -/
def Obligations.OnlyInitClearsAFault : Prop :=
  (∀ s : State, hostOp .init s =
    .next { State.resetFor s.cfg with keySamples := s.keySamples, rndDraws := s.rndDraws }) ∧
  (∀ s t : State, hostOp .init s = .next t → ∀ a, t.mem.read a = 0) ∧
  (∀ (op : HostOp) (s t : State), op ≠ .init → hostOp op s = .next t → s.fault.cause ≠ .none → t.fault = s.fault) ∧
  (∀ (ops : List HostOp) (s t : State), s.fault.cause ≠ .none → .init ∉ ops → hostRun ops s = .next t →
    runEnd ops s = .faulted s.fault) ∧
  (∀ (ops : List HostOp) (s t : State), SuccessfulRun ops s t → t.fault.cause = .none)

/-- R232: the ROM is copied from 0x200 upward, its length recorded, the engine marked loaded; nothing else changes. -/
def Obligations.LoadCopiesTheRom : Prop :=
  ∀ (bytes : List Byte) (s : State), s.loaded = false → s.mem.wf = true → bytes.length ≤ 3584 →
    loadResult bytes = .ok ∧ ∃ t, hostOp (.load bytes) s = .next t ∧
      (∀ (k : Nat) (h : k < bytes.length), t.mem.read (0x200 + k) = bytes[k]) ∧
      (∀ a, a < 0x200 ∨ 0x200 + bytes.length ≤ a → t.mem.read a = s.mem.read a) ∧
      t.romLen = bytes.length ∧ t.loaded = true ∧
      { t with mem := s.mem, romLen := s.romLen, loaded := s.loaded } = s

/-- R233: a larger ROM is reported too large and changes nothing. -/
def Obligations.TooLargeRomChangesNothing : Prop :=
  ∀ (bytes : List Byte) (s : State), s.loaded = false → 3584 < bytes.length →
    loadResult bytes = .romTooLarge ∧ hostOp (.load bytes) s = .next s

/-- The invariant of the engine holds after `init()` with any parameters (R230). -/
def Obligations.InvariantHoldsAtReset : Prop := ∀ cfg : Config, (State.resetFor cfg).Inv

/-- Every step keeps the invariant of the engine (R12, R16, R20, R25, R41, R201, R210). A step that completes leaves the
bounds of `pc`, the flag and the slots, the untouched guard region and the canonical memory; one that faults leaves a
coherent record, and of that state nothing else is claimed. -/
def Obligations.StepKeepsTheInvariant : Prop :=
  ∀ s t : State, s.Inv → step s = .next t → t.Inv

/-- Every operation of the host keeps it, in any order, and so does the platform's placing of a font (log 10); so every
reachable state has it (R29, R41, R179). -/
def Obligations.EveryReachableStateHasTheInvariant : Prop :=
  (∀ (op : HostOp) (s t : State), s.Inv → hostOp op s = .next t → t.Inv) ∧
  (∀ s : State, s.Inv → s.placeFont.Inv) ∧ (∀ s : State, Reachable s → s.Inv)
end

