-- ==== Sys2Proof/Laws/Decode.lean ====
section
/-! SUPPORT. The fields of a packed word, format by format, so that no proof unfolds a bit slice. -/

namespace Sys2Proof

theorem packNNN_bit (op : Nibble) (a : Addr12) (i : Nat) :
    (packNNN op a).getLsbD i = if i < 12 then a.getLsbD i else op.getLsbD (i - 12) :=
  BitVec.getLsbD_append

theorem packXKK_bit (op : Nibble) (x : Reg) (k : Byte) (i : Nat) :
    (packXKK op x k).getLsbD i =
      if i < 8 then k.getLsbD i else if i - 8 < 4 then x.getLsbD (i - 8) else op.getLsbD (i - 8 - 4) := by
  rw [← BitVec.getLsbD_append]
  exact BitVec.getLsbD_append

theorem packXYN_bit (op : Nibble) (x y : Reg) (n : Nibble) (i : Nat) :
    (packXYN op x y n).getLsbD i =
      if i < 4 then n.getLsbD i else if i - 4 < 4 then y.getLsbD (i - 4)
      else if i - 4 - 4 < 4 then x.getLsbD (i - 4 - 4) else op.getLsbD (i - 4 - 4 - 4) := by
  rw [← BitVec.getLsbD_append, ← BitVec.getLsbD_append]
  exact BitVec.getLsbD_append

@[simp] theorem fieldOp_packNNN (op : Nibble) (a : Addr12) : fieldOp (packNNN op a) = op := by
  apply BitVec.eq_of_getLsbD_eq; intro i hi; simp [fieldOp, packNNN_bit, hi]
@[simp] theorem fieldNNN_packNNN (op : Nibble) (a : Addr12) : fieldNNN (packNNN op a) = a := by
  apply BitVec.eq_of_getLsbD_eq; intro i hi; simp [fieldNNN, packNNN_bit, hi]

@[simp] theorem fieldOp_packXKK (op : Nibble) (x : Reg) (k : Byte) : fieldOp (packXKK op x k) = op := by
  apply BitVec.eq_of_getLsbD_eq; intro i hi
  simp [fieldOp, packXKK_bit, hi, show ¬ 12 + i < 8 by omega, show 12 + i - 8 - 4 = i by omega, show ¬ 12 + i - 8 < 4 by omega]
@[simp] theorem fieldX_packXKK (op : Nibble) (x : Reg) (k : Byte) : fieldX (packXKK op x k) = x := by
  apply BitVec.eq_of_getLsbD_eq; intro i hi; simp [fieldX, packXKK_bit, hi]
@[simp] theorem fieldKK_packXKK (op : Nibble) (x : Reg) (k : Byte) : fieldKK (packXKK op x k) = k := by
  apply BitVec.eq_of_getLsbD_eq; intro i hi; simp [fieldKK, packXKK_bit, hi]

@[simp] theorem fieldOp_packXYN (op : Nibble) (x y : Reg) (n : Nibble) : fieldOp (packXYN op x y n) = op := by
  apply BitVec.eq_of_getLsbD_eq; intro i hi
  simp [fieldOp, packXYN_bit, hi, show ¬ 12 + i < 4 by omega, show ¬ 12 + i - 4 < 4 by omega,
    show ¬ 12 + i - 4 - 4 < 4 by omega, show 12 + i - 4 - 4 - 4 = i by omega]
@[simp] theorem fieldX_packXYN (op : Nibble) (x y : Reg) (n : Nibble) : fieldX (packXYN op x y n) = x := by
  apply BitVec.eq_of_getLsbD_eq; intro i hi
  simp [fieldX, packXYN_bit, hi, show ¬ 8 + i < 4 by omega, show ¬ 8 + i - 4 < 4 by omega,
    show 8 + i - 4 - 4 = i by omega]
@[simp] theorem fieldY_packXYN (op : Nibble) (x y : Reg) (n : Nibble) : fieldY (packXYN op x y n) = y := by
  apply BitVec.eq_of_getLsbD_eq; intro i hi; simp [fieldY, packXYN_bit, hi]
@[simp] theorem fieldN_packXYN (op : Nibble) (x y : Reg) (n : Nibble) : fieldN (packXYN op x y n) = n := by
  apply BitVec.eq_of_getLsbD_eq; intro i hi; simp [fieldN, packXYN_bit, hi]

/-! ## Bytes and words -/

theorem joinBytes_bit (hi lo : Byte) (i : Nat) :
    (joinBytes hi lo).getLsbD i = if i < 8 then lo.getLsbD i else hi.getLsbD (i - 8) :=
  BitVec.getLsbD_append

/-- The bytes of a word, joined again, are the word. -/
@[simp] theorem joinBytes_extract (w : Word) : joinBytes (w.extractLsb' 8 8) (w.extractLsb' 0 8) = w := by
  apply BitVec.eq_of_getLsbD_eq
  intro i hi
  rw [joinBytes_bit]
  split
  · rename_i h; simp [h]
  · rename_i h
    have h8 : i - 8 < 8 := by omega
    have hi8 : 8 + (i - 8) = i := by omega
    simp [h8, hi8]

/-- Decoding the bytes of a word is decoding the word. -/
theorem decode_wordBytes {w : Word} {i : Instr} (h : decodeWord w = .ok i) (rest : List Byte) :
    decode (wordBytes w ++ rest) = .ok (i, rest) := by
  simp [wordBytes, decode, h]

/-! ## Masked words -/

theorem packNNN_mask (op : Nibble) (a : Addr12) : packNNN op a &&& 0xF000#16 = packNNN op 0 := by
  apply BitVec.eq_of_getLsbD_eq
  intro i hi
  simp only [BitVec.getLsbD_and, packNNN_bit]
  interval_cases i <;> simp

theorem packXKK_mask (op : Nibble) (x : Reg) (k : Byte) : packXKK op x k &&& 0xF000#16 = packXKK op 0 0 := by
  apply BitVec.eq_of_getLsbD_eq
  intro i hi
  simp only [BitVec.getLsbD_and, packXKK_bit]
  interval_cases i <;> simp

theorem packXKK_maskLow (op : Nibble) (x : Reg) (k : Byte) : packXKK op x k &&& 0xF0FF#16 = packXKK op 0 k := by
  apply BitVec.eq_of_getLsbD_eq
  intro i hi
  simp only [BitVec.getLsbD_and, packXKK_bit]
  interval_cases i <;> simp

theorem packXYN_mask (op : Nibble) (x y : Reg) (n : Nibble) :
    packXYN op x y n &&& 0xF000#16 = packXYN op 0 0 0 := by
  apply BitVec.eq_of_getLsbD_eq
  intro i hi
  simp only [BitVec.getLsbD_and, packXYN_bit]
  interval_cases i <;> simp

theorem packXYN_maskLow (op : Nibble) (x y : Reg) (n : Nibble) :
    packXYN op x y n &&& 0xF00F#16 = packXYN op 0 0 n := by
  apply BitVec.eq_of_getLsbD_eq
  intro i hi
  simp only [BitVec.getLsbD_and, packXYN_bit]
  interval_cases i <;> simp

end Sys2Proof
end

