-- ==== Sys2Proof/Laws/Display.lean ====
section
/-! SUPPORT. The framebuffer's laws: a cell reads what was last written to it, a write leaves every other cell, and
what one set bit of a sprite does. -/

namespace Sys2Proof.Machine

theorem Framebuffer.get_set (f : Framebuffer) (r r' : Fin 32) (c c' : Fin 64) (b : Bool) :
    (f.set r c b).get r' c' = if r' = r ∧ c' = c then b else f.get r' c' := by
  unfold Framebuffer.get Framebuffer.set
  rw [Vector.getElem_set]
  by_cases hr : r.val = r'.val
  · have hr' : r' = r := Fin.ext hr.symm
    subst hr'
    by_cases hc : c.val = c'.val
    · have hc' : c' = c := Fin.ext hc.symm
      subst hc'
      simp
    · have hc' : c' ≠ c := fun h => hc (by rw [h])
      simp [hc', Vector.getElem_set_ne _ _ hc]
  · have hr' : r' ≠ r := fun h => hr (by rw [h])
    simp [hr, hr']

@[simp] theorem Framebuffer.get_blank (r : Fin 32) (c : Fin 64) : Framebuffer.blank.get r c = false := by
  simp [Framebuffer.get, Framebuffer.blank]

/-- A set bit of a sprite flips its cell and no other. -/
theorem drawPixel_get (d : Drawing) (row col : Nat) (r : Fin 32) (c : Fin 64) :
    (drawPixel d row col).fb.get r c =
      (if r.val = row % 32 ∧ c.val = col % 64 then !d.fb.get r c else d.fb.get r c) := by
  have key : ∀ (h1 : row % 32 < 32) (h2 : col % 64 < 64),
      (r = ⟨row % 32, h1⟩ ∧ c = ⟨col % 64, h2⟩) ↔ (r.val = row % 32 ∧ c.val = col % 64) := by
    intro h1 h2; simp [Fin.ext_iff]
  unfold drawPixel
  simp only []
  split
  · rename_i hon
    rw [Framebuffer.get_set]
    simp only [key]
    split
    · rename_i h
      have : d.fb.get r c = true := by rw [← hon]; congr 1 <;> exact Fin.ext (by simp [h])
      simp [this]
    · rfl
  · rename_i hoff
    rw [Framebuffer.get_set]
    simp only [key]
    split
    · rename_i h
      have : d.fb.get r c = false := by
        rw [← Bool.not_eq_true]; intro hc; apply hoff; rw [← hc]; congr 1 <;> exact Fin.ext (by simp [h])
      simp [this]
    · rfl

/-- A set bit of a sprite reports an erase exactly when its cell was on. -/
theorem drawPixel_erased (d : Drawing) (row col : Nat) :
    (drawPixel d row col).erased =
      (d.erased || d.fb.get ⟨row % 32, Nat.mod_lt _ (by decide)⟩ ⟨col % 64, Nat.mod_lt _ (by decide)⟩) := by
  unfold drawPixel
  simp only []
  split <;> simp_all

end Sys2Proof.Machine
end

