-- ==== Sys2Proof/Laws/Memory.lean ====
section
/-! SUPPORT. The laws of main memory: a read after a write, and that every operation keeps the canonical form. -/

namespace Sys2Proof.Machine

/-! ## The canonical form -/

theorem Memory.wfFrom_mono {m : Memory} {lo lo' : Nat} (h : lo' ≤ lo) (w : Memory.wfFrom lo m = true) :
    Memory.wfFrom lo' m = true := by
  cases m with
  | nil => rfl
  | cons c m =>
    obtain ⟨a, b⟩ := c
    simp only [Memory.wfFrom, Bool.and_eq_true, decide_eq_true_eq] at w ⊢
    exact ⟨⟨⟨by omega, w.1.1.2⟩, w.1.2⟩, w.2⟩

theorem Memory.write_wfFrom {m : Memory} {lo k : Nat} {v : Byte} (w : Memory.wfFrom lo m = true) (hk : lo ≤ k)
    (hs : k < Config.memSize) : Memory.wfFrom lo (Memory.write m k v) = true := by
  induction m generalizing lo with
  | nil =>
    unfold Memory.write
    split
    · rfl
    · simp_all [Memory.wfFrom]
  | cons c m ih =>
    obtain ⟨a, b⟩ := c
    have w' := w
    simp only [Memory.wfFrom, Bool.and_eq_true, decide_eq_true_eq] at w'
    obtain ⟨⟨⟨hla, has⟩, hb⟩, hm⟩ := w'
    unfold Memory.write
    split
    · split
      · exact w
      · rename_i hlt hv
        simp only [Memory.wfFrom, Bool.and_eq_true, decide_eq_true_eq, bne_iff_ne]
        simp only [bne_iff_ne] at hb
        exact ⟨⟨⟨hk, hs⟩, hv⟩, ⟨⟨⟨by omega, has⟩, hb⟩, hm⟩⟩
    · split
      · rename_i _ hka
        split
        · exact Memory.wfFrom_mono (by omega) hm
        · rename_i hv
          simp only [Memory.wfFrom, Bool.and_eq_true, decide_eq_true_eq, bne_iff_ne]
          exact ⟨⟨⟨hk, hs⟩, hv⟩, by rw [hka]; exact hm⟩
      · simp only [Memory.wfFrom, Bool.and_eq_true, decide_eq_true_eq]
        exact ⟨⟨⟨hla, has⟩, hb⟩, ih hm (by omega)⟩

/-- A write inside the address space keeps the canonical form. -/
theorem Memory.write_wf {m : Memory} {k : Nat} {v : Byte} (w : m.wf = true) (hs : k < Config.memSize) :
    (Memory.write m k v).wf = true :=
  Memory.write_wfFrom w (Nat.zero_le k) hs

/-- Writing bytes that all lie inside the address space keeps the canonical form. -/
theorem Memory.writeBytes_wf {vs : List Byte} : ∀ {m : Memory} {k : Nat}, m.wf = true →
    k + vs.length ≤ Config.memSize → (Memory.writeBytes m k vs).wf = true := by
  induction vs with
  | nil => intro m k w _; exact w
  | cons v vs ih =>
    intro m k w h
    simp only [List.length_cons] at h
    exact ih (Memory.write_wf w (by omega)) (by omega)

/-- The memory `init()` leaves is in the canonical form. -/
theorem State.resetFor_wf (cfg : Config) : (State.resetFor cfg).mem.wf = true := rfl

/-! ## Reads after writes -/

theorem Memory.read_below {m : Memory} {lo k : Nat} (w : Memory.wfFrom lo m = true) (h : k < lo) :
    Memory.read m k = 0 := by
  induction m generalizing lo with
  | nil => rfl
  | cons c m ih =>
    obtain ⟨a, b⟩ := c
    simp only [Memory.wfFrom, Bool.and_eq_true, decide_eq_true_eq] at w
    unfold Memory.read
    rw [if_neg (by omega)]
    exact ih w.2 (by omega)

theorem Memory.read_writeFrom {m : Memory} {lo k j : Nat} {v : Byte} (w : Memory.wfFrom lo m = true) :
    Memory.read (Memory.write m k v) j = if j = k then v else Memory.read m j := by
  induction m generalizing lo with
  | nil =>
    unfold Memory.write
    split <;> simp_all [Memory.read]
  | cons c m ih =>
    obtain ⟨a, b⟩ := c
    simp only [Memory.wfFrom, Bool.and_eq_true, decide_eq_true_eq] at w
    have hz : ∀ i, i ≤ a → Memory.read m i = 0 := fun i hi => Memory.read_below w.2 (by omega)
    unfold Memory.write
    split
    · rename_i hka
      split
      · rename_i hv
        by_cases hj : j = k
        · subst hj
          have := hz j (by omega)
          simp [Memory.read, hv, this]
          omega
        · simp [hj]
      · simp [Memory.read]
    · split
      · rename_i _ hka
        subst hka
        split
        · rename_i hv
          by_cases hj : j = k
          · simp [hj, hv, hz k (Nat.le_refl k)]
          · simp [hj, Memory.read]
        · by_cases hj : j = k <;> simp [hj, Memory.read]
      · rename_i hka hne
        by_cases hj : j = a
        · subst hj
          simp [Memory.read, Ne.symm hne]
        · simp [Memory.read, hj, ih w.2]

/-- A byte reads what was last written to it; a write leaves every other byte. -/
theorem Memory.read_write {m : Memory} {k j : Nat} {v : Byte} (w : m.wf = true) :
    (Memory.write m k v).read j = if j = k then v else m.read j :=
  Memory.read_writeFrom w

/-- What writing a block of bytes does to every byte. -/
theorem Memory.read_writeBytes {vs : List Byte} : ∀ {m : Memory} {k j : Nat}, m.wf = true →
    k + vs.length ≤ Config.memSize →
    (Memory.writeBytes m k vs).read j =
      if h : k ≤ j ∧ j - k < vs.length then vs[j - k]'h.2 else m.read j := by
  induction vs with
  | nil => intro m k j _ _; simp [Memory.writeBytes]
  | cons v vs ih =>
    intro m k j w hs
    simp only [List.length_cons] at hs
    have hk : k < Config.memSize := by omega
    rw [Memory.writeBytes, ih (Memory.write_wf w hk) (by omega), Memory.read_write w]
    by_cases h1 : k + 1 ≤ j ∧ j - (k + 1) < vs.length
    · have h2 : k ≤ j ∧ j - k < (v :: vs).length := by simp only [List.length_cons]; omega
      have h3 : j - k = j - (k + 1) + 1 := by omega
      rw [dif_pos h1, dif_pos h2]
      simp [h3]
    · rw [dif_neg h1]
      by_cases hj : j = k
      · subst hj
        simp
      · have h2 : ¬ (k ≤ j ∧ j - k < (v :: vs).length) := by simp only [List.length_cons]; omega
        rw [dif_neg h2, if_neg hj]

@[simp] theorem Memory.readBytes_length (m : Memory) (n : Nat) : ∀ k, (m.readBytes k n).length = n := by
  induction n with
  | zero => intro k; rfl
  | succ n ih => intro k; simp [Memory.readBytes, ih]

@[simp] theorem Memory.readBytes_getElem (m : Memory) (n : Nat) : ∀ (k j : Nat) (h : j < (m.readBytes k n).length),
    (m.readBytes k n)[j] = m.read (k + j) := by
  induction n with
  | zero => intro k j h; simp at h
  | succ n ih =>
    intro k j h
    cases j with
    | zero => rfl
    | succ j =>
      simp only [Memory.readBytes, List.getElem_cons_succ, ih]
      congr 1
      omega

end Sys2Proof.Machine
end

