-- ==== Sys2Proof/Laws/HostOps.lean ====
section
/-! SUPPORT. What the host is told, read from the state an operation leaves, and what the placing of a font does. -/

namespace Sys2Proof.Machine

/-- A state without a fault reports `ok`. -/
theorem State.stepResult_ok {t : State} (h : t.fault.cause = .none) : t.stepResult = .ok := by
  simp [State.stepResult, h]

/-- A state with a fault reports its record. -/
theorem State.stepResult_fault {t : State} (h : t.fault.cause ≠ .none) : t.stepResult = .fault t.fault := by
  unfold State.stepResult
  split
  · contradiction
  · rfl

/-- A run that answers a state without a fault is final there. -/
theorem runEnd_final {ops : List HostOp} {s t : State} (h : hostRun ops s = .next t) (hf : t.fault.cause = .none) :
    runEnd ops s = .final t := by
  simp [runEnd, h, State.stepResult_ok hf]

/-- Of a run that answers a state with a fault only the record is left. -/
theorem runEnd_faulted {ops : List HostOp} {s t : State} (h : hostRun ops s = .next t) (hf : t.fault.cause ≠ .none) :
    runEnd ops s = .faulted t.fault := by
  simp [runEnd, h, State.stepResult_fault hf]

/-! ## The placing of a font -/

@[simp] theorem State.placeFont_v (s : State) : s.placeFont.v = s.v := rfl
@[simp] theorem State.placeFont_pc (s : State) : s.placeFont.pc = s.pc := rfl
@[simp] theorem State.placeFont_index (s : State) : s.placeFont.index = s.index := rfl
@[simp] theorem State.placeFont_stack (s : State) : s.placeFont.stack = s.stack := rfl
@[simp] theorem State.placeFont_sp (s : State) : s.placeFont.sp = s.sp := rfl
@[simp] theorem State.placeFont_dt (s : State) : s.placeFont.dt = s.dt := rfl
@[simp] theorem State.placeFont_st (s : State) : s.placeFont.st = s.st := rfl
@[simp] theorem State.placeFont_fb (s : State) : s.placeFont.fb = s.fb := rfl
@[simp] theorem State.placeFont_dirty (s : State) : s.placeFont.dirty = s.dirty := rfl
@[simp] theorem State.placeFont_loaded (s : State) : s.placeFont.loaded = s.loaded := rfl
@[simp] theorem State.placeFont_romLen (s : State) : s.placeFont.romLen = s.romLen := rfl
@[simp] theorem State.placeFont_fault (s : State) : s.placeFont.fault = s.fault := rfl
@[simp] theorem State.placeFont_cfg (s : State) : s.placeFont.cfg = s.cfg := rfl
@[simp] theorem State.placeFont_keySamples (s : State) : s.placeFont.keySamples = s.keySamples := rfl
@[simp] theorem State.placeFont_rndDraws (s : State) : s.placeFont.rndDraws = s.rndDraws := rfl
@[simp] theorem State.placeFont_mem (s : State) : s.placeFont.mem = s.mem.withFont s.cfg.font := rfl

/-- Without a font nothing is placed. -/
theorem State.placeFont_none {s : State} (h : s.cfg.font = none) : s.placeFont = s := by
  rw [State.placeFont, h]
  rfl

/-- The bytes that are placed end below 0x200; where the window begins above, there are none. -/
theorem placed_end (f : Font) (h : f.base ≤ Config.progBase) :
    f.base + (f.bytes.take (Config.progBase - f.base)).length ≤ Config.progBase := by
  rw [List.length_take]
  omega

/-- What placing does to every byte: those of the window below 0x200 become the platform's, every other stays. -/
theorem Memory.read_withFont {m : Memory} (f : Font) (w : m.wf = true) (a : Nat) :
    (m.withFont (some f)).read a =
      if h : a < 0x200 ∧ f.base ≤ a ∧ a - f.base < f.bytes.length then f.bytes[a - f.base]'h.2.2
      else m.read a := by
  unfold Memory.withFont
  by_cases hb : f.base ≤ Config.progBase
  · have he := placed_end f hb
    rw [Memory.read_writeBytes w (by simp only [Config.memSize, Config.progBase] at *; omega)]
    by_cases h : a < 0x200 ∧ f.base ≤ a ∧ a - f.base < f.bytes.length
    · have hl : f.base ≤ a ∧ a - f.base < (f.bytes.take (Config.progBase - f.base)).length := by
        rw [List.length_take]
        simp only [Config.progBase] at *
        omega
      rw [dif_pos hl, dif_pos h, List.getElem_take]
    · have hl : ¬ (f.base ≤ a ∧ a - f.base < (f.bytes.take (Config.progBase - f.base)).length) := by
        rw [List.length_take]
        simp only [Config.progBase] at *
        omega
      rw [dif_neg hl, dif_neg h]
  · have h0 : Config.progBase - f.base = 0 := by omega
    rw [dif_neg (by simp only [Config.progBase] at hb; omega)]
    simp only [h0, List.take_zero, Memory.writeBytes]

/-- What the platform's placing does to every byte of the machine's memory. -/
theorem State.read_placeFont {s : State} {f : Font} (w : s.mem.wf = true) (hf : s.cfg.font = some f) (a : Nat) :
    s.placeFont.mem.read a =
      if h : a < 0x200 ∧ f.base ≤ a ∧ a - f.base < f.bytes.length then f.bytes[a - f.base]'h.2.2
      else s.mem.read a := by
  rw [State.placeFont_mem, hf]
  exact Memory.read_withFont f w a

/-- Placing keeps the canonical form of memory. -/
theorem Memory.withFont_wf {m : Memory} (font : Option Font) (w : m.wf = true) : (m.withFont font).wf = true := by
  unfold Memory.withFont
  split
  · exact w
  · rename_i f
    by_cases hb : f.base ≤ Config.progBase
    · have he := placed_end f hb
      exact Memory.writeBytes_wf w (by simp only [Config.memSize, Config.progBase] at *; omega)
    · have h0 : Config.progBase - f.base = 0 := by omega
      rw [h0]
      exact w

end Sys2Proof.Machine
end

