-- ==== Sys2Proof/Laws/State.lean ====
section
/-! SUPPORT. What each named update of the state does to each field, once, so that no proof unfolds a record
update. -/

namespace Sys2Proof.Machine

variable (s : State)

/-! ## `setReg` -/

@[simp] theorem State.setReg_v (r : Reg) (b : Byte) : (s.setReg r b).v = s.v.set r.toNat b r.isLt := rfl
@[simp] theorem State.setReg_pc (r : Reg) (b : Byte) : (s.setReg r b).pc = s.pc := rfl
@[simp] theorem State.setReg_index (r : Reg) (b : Byte) : (s.setReg r b).index = s.index := rfl
@[simp] theorem State.setReg_stack (r : Reg) (b : Byte) : (s.setReg r b).stack = s.stack := rfl
@[simp] theorem State.setReg_sp (r : Reg) (b : Byte) : (s.setReg r b).sp = s.sp := rfl
@[simp] theorem State.setReg_dt (r : Reg) (b : Byte) : (s.setReg r b).dt = s.dt := rfl
@[simp] theorem State.setReg_st (r : Reg) (b : Byte) : (s.setReg r b).st = s.st := rfl
@[simp] theorem State.setReg_mem (r : Reg) (b : Byte) : (s.setReg r b).mem = s.mem := rfl
@[simp] theorem State.setReg_fb (r : Reg) (b : Byte) : (s.setReg r b).fb = s.fb := rfl
@[simp] theorem State.setReg_dirty (r : Reg) (b : Byte) : (s.setReg r b).dirty = s.dirty := rfl
@[simp] theorem State.setReg_loaded (r : Reg) (b : Byte) : (s.setReg r b).loaded = s.loaded := rfl
@[simp] theorem State.setReg_romLen (r : Reg) (b : Byte) : (s.setReg r b).romLen = s.romLen := rfl
@[simp] theorem State.setReg_fault (r : Reg) (b : Byte) : (s.setReg r b).fault = s.fault := rfl
@[simp] theorem State.setReg_cfg (r : Reg) (b : Byte) : (s.setReg r b).cfg = s.cfg := rfl
@[simp] theorem State.setReg_keySamples (r : Reg) (b : Byte) : (s.setReg r b).keySamples = s.keySamples := rfl
@[simp] theorem State.setReg_rndDraws (r : Reg) (b : Byte) : (s.setReg r b).rndDraws = s.rndDraws := rfl

/-! ## `raise` -/

@[simp] theorem State.raise_v (t : Trap) (w : Word) : (s.raise t w).v = s.v := rfl
@[simp] theorem State.raise_pc (t : Trap) (w : Word) : (s.raise t w).pc = s.pc := rfl
@[simp] theorem State.raise_index (t : Trap) (w : Word) : (s.raise t w).index = s.index := rfl
@[simp] theorem State.raise_stack (t : Trap) (w : Word) : (s.raise t w).stack = s.stack := rfl
@[simp] theorem State.raise_sp (t : Trap) (w : Word) : (s.raise t w).sp = s.sp := rfl
@[simp] theorem State.raise_dt (t : Trap) (w : Word) : (s.raise t w).dt = s.dt := rfl
@[simp] theorem State.raise_st (t : Trap) (w : Word) : (s.raise t w).st = s.st := rfl
@[simp] theorem State.raise_mem (t : Trap) (w : Word) : (s.raise t w).mem = s.mem := rfl
@[simp] theorem State.raise_fb (t : Trap) (w : Word) : (s.raise t w).fb = s.fb := rfl
@[simp] theorem State.raise_dirty (t : Trap) (w : Word) : (s.raise t w).dirty = s.dirty := rfl
@[simp] theorem State.raise_loaded (t : Trap) (w : Word) : (s.raise t w).loaded = s.loaded := rfl
@[simp] theorem State.raise_romLen (t : Trap) (w : Word) : (s.raise t w).romLen = s.romLen := rfl
@[simp] theorem State.raise_fault (t : Trap) (w : Word) : (s.raise t w).fault = { cause := t.cause, pc := s.pc, ir := w, addr := t.addr } := rfl
@[simp] theorem State.raise_cfg (t : Trap) (w : Word) : (s.raise t w).cfg = s.cfg := rfl
@[simp] theorem State.raise_keySamples (t : Trap) (w : Word) : (s.raise t w).keySamples = s.keySamples := rfl
@[simp] theorem State.raise_rndDraws (t : Trap) (w : Word) : (s.raise t w).rndDraws = s.rndDraws := rfl

/-! ## `advance` -/

@[simp] theorem State.advance_v : (s.advance).v = s.v := rfl
@[simp] theorem State.advance_pc : (s.advance).pc = s.pc + 2 := rfl
@[simp] theorem State.advance_index : (s.advance).index = s.index := rfl
@[simp] theorem State.advance_stack : (s.advance).stack = s.stack := rfl
@[simp] theorem State.advance_sp : (s.advance).sp = s.sp := rfl
@[simp] theorem State.advance_dt : (s.advance).dt = s.dt := rfl
@[simp] theorem State.advance_st : (s.advance).st = s.st := rfl
@[simp] theorem State.advance_mem : (s.advance).mem = s.mem := rfl
@[simp] theorem State.advance_fb : (s.advance).fb = s.fb := rfl
@[simp] theorem State.advance_dirty : (s.advance).dirty = s.dirty := rfl
@[simp] theorem State.advance_loaded : (s.advance).loaded = s.loaded := rfl
@[simp] theorem State.advance_romLen : (s.advance).romLen = s.romLen := rfl
@[simp] theorem State.advance_fault : (s.advance).fault = s.fault := rfl
@[simp] theorem State.advance_cfg : (s.advance).cfg = s.cfg := rfl
@[simp] theorem State.advance_keySamples : (s.advance).keySamples = s.keySamples := rfl
@[simp] theorem State.advance_rndDraws : (s.advance).rndDraws = s.rndDraws := rfl

/-! ## `sampled` -/

@[simp] theorem State.sampled_v : (s.sampled).v = s.v := rfl
@[simp] theorem State.sampled_pc : (s.sampled).pc = s.pc := rfl
@[simp] theorem State.sampled_index : (s.sampled).index = s.index := rfl
@[simp] theorem State.sampled_stack : (s.sampled).stack = s.stack := rfl
@[simp] theorem State.sampled_sp : (s.sampled).sp = s.sp := rfl
@[simp] theorem State.sampled_dt : (s.sampled).dt = s.dt := rfl
@[simp] theorem State.sampled_st : (s.sampled).st = s.st := rfl
@[simp] theorem State.sampled_mem : (s.sampled).mem = s.mem := rfl
@[simp] theorem State.sampled_fb : (s.sampled).fb = s.fb := rfl
@[simp] theorem State.sampled_dirty : (s.sampled).dirty = s.dirty := rfl
@[simp] theorem State.sampled_loaded : (s.sampled).loaded = s.loaded := rfl
@[simp] theorem State.sampled_romLen : (s.sampled).romLen = s.romLen := rfl
@[simp] theorem State.sampled_fault : (s.sampled).fault = s.fault := rfl
@[simp] theorem State.sampled_cfg : (s.sampled).cfg = s.cfg := rfl
@[simp] theorem State.sampled_keySamples : (s.sampled).keySamples = s.keySamples + 1 := rfl
@[simp] theorem State.sampled_rndDraws : (s.sampled).rndDraws = s.rndDraws := rfl

/-! ## `drawn` -/

@[simp] theorem State.drawn_v : (s.drawn).v = s.v := rfl
@[simp] theorem State.drawn_pc : (s.drawn).pc = s.pc := rfl
@[simp] theorem State.drawn_index : (s.drawn).index = s.index := rfl
@[simp] theorem State.drawn_stack : (s.drawn).stack = s.stack := rfl
@[simp] theorem State.drawn_sp : (s.drawn).sp = s.sp := rfl
@[simp] theorem State.drawn_dt : (s.drawn).dt = s.dt := rfl
@[simp] theorem State.drawn_st : (s.drawn).st = s.st := rfl
@[simp] theorem State.drawn_mem : (s.drawn).mem = s.mem := rfl
@[simp] theorem State.drawn_fb : (s.drawn).fb = s.fb := rfl
@[simp] theorem State.drawn_dirty : (s.drawn).dirty = s.dirty := rfl
@[simp] theorem State.drawn_loaded : (s.drawn).loaded = s.loaded := rfl
@[simp] theorem State.drawn_romLen : (s.drawn).romLen = s.romLen := rfl
@[simp] theorem State.drawn_fault : (s.drawn).fault = s.fault := rfl
@[simp] theorem State.drawn_cfg : (s.drawn).cfg = s.cfg := rfl
@[simp] theorem State.drawn_keySamples : (s.drawn).keySamples = s.keySamples := rfl
@[simp] theorem State.drawn_rndDraws : (s.drawn).rndDraws = s.rndDraws + 1 := rfl

/-! ## `setRegFlag` -/

@[simp] theorem State.setRegFlag_v (x : Reg) (b c : Byte) : (s.setRegFlag x b c).v = (s.v.set flagReg.toNat c flagReg.isLt).set x.toNat b x.isLt := rfl
@[simp] theorem State.setRegFlag_pc (x : Reg) (b c : Byte) : (s.setRegFlag x b c).pc = s.pc := rfl
@[simp] theorem State.setRegFlag_index (x : Reg) (b c : Byte) : (s.setRegFlag x b c).index = s.index := rfl
@[simp] theorem State.setRegFlag_stack (x : Reg) (b c : Byte) : (s.setRegFlag x b c).stack = s.stack := rfl
@[simp] theorem State.setRegFlag_sp (x : Reg) (b c : Byte) : (s.setRegFlag x b c).sp = s.sp := rfl
@[simp] theorem State.setRegFlag_dt (x : Reg) (b c : Byte) : (s.setRegFlag x b c).dt = s.dt := rfl
@[simp] theorem State.setRegFlag_st (x : Reg) (b c : Byte) : (s.setRegFlag x b c).st = s.st := rfl
@[simp] theorem State.setRegFlag_mem (x : Reg) (b c : Byte) : (s.setRegFlag x b c).mem = s.mem := rfl
@[simp] theorem State.setRegFlag_fb (x : Reg) (b c : Byte) : (s.setRegFlag x b c).fb = s.fb := rfl
@[simp] theorem State.setRegFlag_dirty (x : Reg) (b c : Byte) : (s.setRegFlag x b c).dirty = s.dirty := rfl
@[simp] theorem State.setRegFlag_loaded (x : Reg) (b c : Byte) : (s.setRegFlag x b c).loaded = s.loaded := rfl
@[simp] theorem State.setRegFlag_romLen (x : Reg) (b c : Byte) : (s.setRegFlag x b c).romLen = s.romLen := rfl
@[simp] theorem State.setRegFlag_fault (x : Reg) (b c : Byte) : (s.setRegFlag x b c).fault = s.fault := rfl
@[simp] theorem State.setRegFlag_cfg (x : Reg) (b c : Byte) : (s.setRegFlag x b c).cfg = s.cfg := rfl
@[simp] theorem State.setRegFlag_keySamples (x : Reg) (b c : Byte) : (s.setRegFlag x b c).keySamples = s.keySamples := rfl
@[simp] theorem State.setRegFlag_rndDraws (x : Reg) (b c : Byte) : (s.setRegFlag x b c).rndDraws = s.rndDraws := rfl

/-! ## `skipIf` -/

@[simp] theorem State.skipIf_v (c : Bool) : (s.skipIf c).v = s.v := by
  unfold State.skipIf; split <;> rfl
@[simp] theorem State.skipIf_pc (c : Bool) : (s.skipIf c).pc = if c then s.pc + 2 else s.pc := by
  unfold State.skipIf; split <;> rfl
@[simp] theorem State.skipIf_index (c : Bool) : (s.skipIf c).index = s.index := by
  unfold State.skipIf; split <;> rfl
@[simp] theorem State.skipIf_stack (c : Bool) : (s.skipIf c).stack = s.stack := by
  unfold State.skipIf; split <;> rfl
@[simp] theorem State.skipIf_sp (c : Bool) : (s.skipIf c).sp = s.sp := by
  unfold State.skipIf; split <;> rfl
@[simp] theorem State.skipIf_dt (c : Bool) : (s.skipIf c).dt = s.dt := by
  unfold State.skipIf; split <;> rfl
@[simp] theorem State.skipIf_st (c : Bool) : (s.skipIf c).st = s.st := by
  unfold State.skipIf; split <;> rfl
@[simp] theorem State.skipIf_mem (c : Bool) : (s.skipIf c).mem = s.mem := by
  unfold State.skipIf; split <;> rfl
@[simp] theorem State.skipIf_fb (c : Bool) : (s.skipIf c).fb = s.fb := by
  unfold State.skipIf; split <;> rfl
@[simp] theorem State.skipIf_dirty (c : Bool) : (s.skipIf c).dirty = s.dirty := by
  unfold State.skipIf; split <;> rfl
@[simp] theorem State.skipIf_loaded (c : Bool) : (s.skipIf c).loaded = s.loaded := by
  unfold State.skipIf; split <;> rfl
@[simp] theorem State.skipIf_romLen (c : Bool) : (s.skipIf c).romLen = s.romLen := by
  unfold State.skipIf; split <;> rfl
@[simp] theorem State.skipIf_fault (c : Bool) : (s.skipIf c).fault = s.fault := by
  unfold State.skipIf; split <;> rfl
@[simp] theorem State.skipIf_cfg (c : Bool) : (s.skipIf c).cfg = s.cfg := by
  unfold State.skipIf; split <;> rfl
@[simp] theorem State.skipIf_keySamples (c : Bool) : (s.skipIf c).keySamples = s.keySamples := by
  unfold State.skipIf; split <;> rfl
@[simp] theorem State.skipIf_rndDraws (c : Bool) : (s.skipIf c).rndDraws = s.rndDraws := by
  unfold State.skipIf; split <;> rfl

/-! ## `setRegsFrom` writes `v` alone -/

theorem State.setRegsFrom_eq (bs : List Byte) : ∀ (s : State) (k : Nat),
    s.setRegsFrom k bs = { s with v := (s.setRegsFrom k bs).v } := by
  induction bs with
  | nil => intro s k; rfl
  | cons b bs ih => intro s k; rw [State.setRegsFrom, ih]; rfl

@[simp] theorem State.setRegsFrom_pc (k : Nat) (bs : List Byte) : (s.setRegsFrom k bs).pc = s.pc := by
  rw [State.setRegsFrom_eq]
@[simp] theorem State.setRegsFrom_index (k : Nat) (bs : List Byte) : (s.setRegsFrom k bs).index = s.index := by
  rw [State.setRegsFrom_eq]
@[simp] theorem State.setRegsFrom_stack (k : Nat) (bs : List Byte) : (s.setRegsFrom k bs).stack = s.stack := by
  rw [State.setRegsFrom_eq]
@[simp] theorem State.setRegsFrom_sp (k : Nat) (bs : List Byte) : (s.setRegsFrom k bs).sp = s.sp := by
  rw [State.setRegsFrom_eq]
@[simp] theorem State.setRegsFrom_dt (k : Nat) (bs : List Byte) : (s.setRegsFrom k bs).dt = s.dt := by
  rw [State.setRegsFrom_eq]
@[simp] theorem State.setRegsFrom_st (k : Nat) (bs : List Byte) : (s.setRegsFrom k bs).st = s.st := by
  rw [State.setRegsFrom_eq]
@[simp] theorem State.setRegsFrom_mem (k : Nat) (bs : List Byte) : (s.setRegsFrom k bs).mem = s.mem := by
  rw [State.setRegsFrom_eq]
@[simp] theorem State.setRegsFrom_fb (k : Nat) (bs : List Byte) : (s.setRegsFrom k bs).fb = s.fb := by
  rw [State.setRegsFrom_eq]
@[simp] theorem State.setRegsFrom_dirty (k : Nat) (bs : List Byte) : (s.setRegsFrom k bs).dirty = s.dirty := by
  rw [State.setRegsFrom_eq]
@[simp] theorem State.setRegsFrom_loaded (k : Nat) (bs : List Byte) : (s.setRegsFrom k bs).loaded = s.loaded := by
  rw [State.setRegsFrom_eq]
@[simp] theorem State.setRegsFrom_romLen (k : Nat) (bs : List Byte) : (s.setRegsFrom k bs).romLen = s.romLen := by
  rw [State.setRegsFrom_eq]
@[simp] theorem State.setRegsFrom_fault (k : Nat) (bs : List Byte) : (s.setRegsFrom k bs).fault = s.fault := by
  rw [State.setRegsFrom_eq]
@[simp] theorem State.setRegsFrom_cfg (k : Nat) (bs : List Byte) : (s.setRegsFrom k bs).cfg = s.cfg := by
  rw [State.setRegsFrom_eq]
@[simp] theorem State.setRegsFrom_keySamples (k : Nat) (bs : List Byte) : (s.setRegsFrom k bs).keySamples = s.keySamples := by
  rw [State.setRegsFrom_eq]
@[simp] theorem State.setRegsFrom_rndDraws (k : Nat) (bs : List Byte) : (s.setRegsFrom k bs).rndDraws = s.rndDraws := by
  rw [State.setRegsFrom_eq]

/-! ## Registers -/

/-- A register reads what was last written to it; a write leaves the others. -/
theorem State.reg_setReg (x y : Reg) (b : Byte) : (s.setReg x b).reg y = if x = y then b else s.reg y := by
  simp only [State.reg, State.setReg, Vector.getElem_set, BitVec.toNat_inj]

@[simp] theorem State.reg_setReg_same (x : Reg) (b : Byte) : (s.setReg x b).reg x = b := by
  simp [State.reg_setReg]

theorem State.reg_setReg_other {x y : Reg} (h : x ≠ y) (b : Byte) : (s.setReg x b).reg y = s.reg y := by
  simp [State.reg_setReg, h]

@[simp] theorem State.advance_reg (r : Reg) : s.advance.reg r = s.reg r := rfl
@[simp] theorem State.sampled_reg (r : Reg) : s.sampled.reg r = s.reg r := rfl
@[simp] theorem State.drawn_reg (r : Reg) : s.drawn.reg r = s.reg r := rfl
@[simp] theorem State.raise_reg (t : Trap) (w : Word) (r : Reg) : (s.raise t w).reg r = s.reg r := rfl

@[simp] theorem State.advance_regsFrom (n k : Nat) : s.advance.regsFrom k n = s.regsFrom k n := by
  induction n generalizing k with
  | zero => rfl
  | succ n ih => simp [State.regsFrom, ih]

@[simp] theorem State.advance_keysNow : s.advance.keysNow = s.keysNow := rfl

end Sys2Proof.Machine
end

