-- ==== Sys2Proof/Laws/Ops.lean ====
section
/-! SUPPORT. What each shared operation can do, said once. -/

namespace Sys2Proof.Machine

/-! ## `perform` -/

/-- A tested register field of 15: the REG_INDEX fault is taken. -/
theorem perform_regIndex {i : Instr} {s : State} {rule : State → Except Trap State} (h : flagReg ∈ testedRegs i) :
    perform i s rule = .next (s.raise regIndexTrap (encode i)) := by
  simp [perform, h]

/-- No tested field of 15 and the rule completes: its result on the advanced state is committed. -/
theorem perform_ok {i : Instr} {s t : State} {rule : State → Except Trap State} (h : flagReg ∉ testedRegs i)
    (hr : rule s.advance = .ok t) : perform i s rule = .next t := by
  simp [perform, h, hr]

/-- No tested field of 15 and the rule traps: the fault is taken on the state before the step. -/
theorem perform_trap {i : Instr} {s : State} {e : Trap} {rule : State → Except Trap State}
    (h : flagReg ∉ testedRegs i) (hr : rule s.advance = .error e) :
    perform i s rule = .next (s.raise e (encode i)) := by
  simp [perform, h, hr]

/-- No tested field of 15: the rule runs on the advanced state, and commits or traps. -/
theorem perform_rule {i : Instr} {s : State} {rule : State → Except Trap State} (h : flagReg ∉ testedRegs i) :
    perform i s rule =
      match rule s.advance with
      | .ok t => .next t
      | .error e => .next (s.raise e (encode i)) :=
  if_neg h

/-- Everything `perform` can do. -/
theorem perform_cases {i : Instr} {s t : State} {rule : State → Except Trap State} (h : perform i s rule = .next t) :
    (flagReg ∈ testedRegs i ∧ t = s.raise regIndexTrap (encode i)) ∨
    (flagReg ∉ testedRegs i ∧ rule s.advance = .ok t) ∨
    (flagReg ∉ testedRegs i ∧ ∃ e, rule s.advance = .error e ∧ t = s.raise e (encode i)) := by
  unfold perform at h
  split at h
  · rename_i hm
    exact .inl ⟨hm, by simpa using h.symm⟩
  · rename_i hm
    split at h
    · rename_i t' hr
      exact .inr (.inl ⟨hm, by simpa using hr.trans (by simpa using h)⟩)
    · rename_i e hr
      exact .inr (.inr ⟨hm, e, hr, by simpa using h.symm⟩)

/-- `perform` always answers a next state: a program's fault is taken. -/
theorem perform_next (i : Instr) (s : State) (rule : State → Except Trap State) :
    ∃ t, perform i s rule = .next t := by
  unfold perform
  split
  · exact ⟨_, rfl⟩
  · split <;> exact ⟨_, rfl⟩

/-! ## Address checks -/

/-- An address inside program space fails neither bound. -/
theorem addressFault_program {cfg : Config} {kind : Access} {ea : Nat} (h : Config.progBase ≤ ea)
    (h' : ea < Config.memSize) : addressFault cfg kind ea = none := by
  simp [addressFault, Nat.not_le.mpr h', Nat.not_lt.mpr h]

/-- Without a font, and for writes and fetches always, only program space is accessible. -/
theorem addressFault_none_iff {cfg : Config} {kind : Access} {ea : Nat} :
    addressFault cfg kind ea = none ↔
      ea < Config.memSize ∧ (Config.progBase ≤ ea ∨ fontReadable cfg kind ea = true) := by
  unfold addressFault
  split
  · simp only [reduceCtorEq, false_iff]
    omega
  · rename_i hr
    split
    · rename_i hg
      simp only [Bool.and_eq_true, decide_eq_true_eq, Bool.not_eq_true'] at hg
      simp [hg.2, Nat.not_le.mpr hg.1]
    · rename_i hg
      simp only [Bool.and_eq_true, decide_eq_true_eq, Bool.not_eq_true', not_and, Bool.not_eq_false] at hg
      refine iff_of_true rfl ⟨by omega, ?_⟩
      by_cases h : Config.progBase ≤ ea
      · exact .inl h
      · exact .inr (hg (by omega))

/-- An access passes exactly when each of its addresses does. -/
theorem accessFault_none_iff {cfg : Config} {kind : Access} (n : Nat) : ∀ {ea : Nat},
    accessFault cfg kind ea n = none ↔ ∀ k, k < n → addressFault cfg kind (ea + k) = none := by
  induction n with
  | zero => intro ea; simp [accessFault]
  | succ n ih =>
    intro ea
    unfold accessFault
    split
    · rename_i c hc
      simp only [reduceCtorEq, false_iff, not_forall]
      exact ⟨0, by simp [hc]⟩
    · rename_i hc
      rw [ih]
      constructor
      · intro h k hk
        cases k with
        | zero => simpa using hc
        | succ k => rw [show ea + (k + 1) = ea + 1 + k by omega]; exact h k (by omega)
      · intro h k hk
        rw [show ea + 1 + k = ea + (k + 1) by omega]
        exact h (k + 1) (by omega)

/-- An access inside program space passes. -/
theorem accessFault_program {cfg : Config} {kind : Access} {ea n : Nat} (h : Config.progBase ≤ ea)
    (h' : ea + n ≤ Config.memSize) : accessFault cfg kind ea n = none :=
  (accessFault_none_iff n).mpr fun k hk => addressFault_program (by omega) (by omega)

/-- A write or fetch that passes lies inside program space. -/
theorem accessFault_none_program {cfg : Config} {kind : Access} {ea n : Nat} (hk : kind ≠ .read) (hn : 0 < n)
    (h : accessFault cfg kind ea n = none) : Config.progBase ≤ ea ∧ ea + n ≤ Config.memSize := by
  have h0 := addressFault_none_iff.mp ((accessFault_none_iff n).mp h 0 hn)
  have h1 := addressFault_none_iff.mp ((accessFault_none_iff n).mp h (n - 1) (by omega))
  have hf : fontReadable cfg kind ea = false := by cases kind <;> simp_all [fontReadable]
  rw [Nat.add_zero] at h0
  simp only [hf, Bool.false_eq_true, or_false] at h0
  exact ⟨h0.2, by omega⟩

/-- A failing access reports the lowest failing address and its fault. -/
theorem accessFault_some {cfg : Config} {kind : Access} {e : Trap} (n : Nat) : ∀ {ea : Nat},
    accessFault cfg kind ea n = some e →
      ∃ k, k < n ∧ e.addr = ea + k ∧ addressFault cfg kind (ea + k) = some e.cause ∧
        ∀ j, j < k → addressFault cfg kind (ea + j) = none := by
  induction n with
  | zero => intro ea h; simp [accessFault] at h
  | succ n ih =>
    intro ea h
    unfold accessFault at h
    split at h
    · rename_i c hc
      simp only [Option.some.injEq] at h
      subst h
      exact ⟨0, by omega, rfl, hc, by omega⟩
    · rename_i hc
      obtain ⟨k, hk, ha, hf, hj⟩ := ih h
      refine ⟨k + 1, by omega, by omega, by rw [show ea + (k + 1) = ea + 1 + k by omega]; exact hf, ?_⟩
      intro j hjk
      cases j with
      | zero => simpa using hc
      | succ j => rw [show ea + (j + 1) = ea + 1 + j by omega]; exact hj j (by omega)

/-- An address fault is MEM_RANGE at or above 0x1000, or MEM_GUARD below 0x200. -/
theorem addressFault_some {cfg : Config} {kind : Access} {ea : Nat} {c : Cause}
    (h : addressFault cfg kind ea = some c) :
    (c = .memRange ∧ Config.memSize ≤ ea) ∨ (c = .memGuard ∧ ea < Config.progBase) := by
  unfold addressFault at h
  split at h
  · rename_i hr
    simp only [Option.some.injEq] at h
    exact .inl ⟨h.symm, hr⟩
  · split at h
    · rename_i hg
      simp only [Option.some.injEq] at h
      simp only [Bool.and_eq_true, decide_eq_true_eq] at hg
      exact .inr ⟨h.symm, hg.1⟩
    · simp at h

/-- `withAccess` runs its rule exactly when every address passes. -/
theorem withAccess_ok {kind : Access} {n : Nat} {p : State} {rule : State → State}
    (h : p.dataFault kind n = none) : withAccess kind n p rule = .ok (rule p) := by
  simp [withAccess, h]

theorem withAccess_trap {kind : Access} {n : Nat} {p : State} {rule : State → State} {e : Trap}
    (h : p.dataFault kind n = some e) : withAccess kind n p rule = .error e := by
  simp [withAccess, h]

/-- Everything `withAccess` can do. -/
theorem withAccess_cases {kind : Access} {n : Nat} {p : State} {rule : State → State} :
    (p.dataFault kind n = none ∧ withAccess kind n p rule = .ok (rule p)) ∨
    (∃ e, p.dataFault kind n = some e ∧ withAccess kind n p rule = .error e) := by
  cases h : p.dataFault kind n with
  | none => exact .inl ⟨rfl, withAccess_ok h⟩
  | some e => exact .inr ⟨e, rfl, withAccess_trap h⟩

@[simp] theorem State.advance_dataFault (s : State) (kind : Access) (n : Nat) :
    s.advance.dataFault kind n = s.dataFault kind n := rfl

/-! ## Blocks of registers -/

@[simp] theorem State.regsFrom_length (s : State) (n : Nat) : ∀ k, (s.regsFrom k n).length = n := by
  induction n with
  | zero => intro k; rfl
  | succ n ih => intro k; simp [State.regsFrom, ih]

@[simp] theorem State.regsFrom_getElem (s : State) (n : Nat) : ∀ (k j : Nat) (h : j < (s.regsFrom k n).length),
    (s.regsFrom k n)[j] = s.reg (BitVec.ofNat 4 (k + j)) := by
  induction n with
  | zero => intro k j h; simp at h
  | succ n ih =>
    intro k j h
    cases j with
    | zero => rfl
    | succ j =>
      simp only [State.regsFrom, List.getElem_cons_succ, ih]
      congr 2
      omega

/-- What writing a block of bytes to registers does to every register. -/
theorem State.reg_setRegsFrom (bs : List Byte) : ∀ (s : State) (k : Nat) (r : Reg), k + bs.length ≤ 16 →
    (s.setRegsFrom k bs).reg r =
      if h : k ≤ r.toNat ∧ r.toNat - k < bs.length then bs[r.toNat - k]'h.2 else s.reg r := by
  induction bs with
  | nil => intro s k r _; simp [State.setRegsFrom]
  | cons b bs ih =>
    intro s k r hk
    simp only [List.length_cons] at hk
    have hkk : (BitVec.ofNat 4 k).toNat = k := by simp; omega
    rw [State.setRegsFrom, ih _ _ _ (by omega), State.reg_setReg]
    by_cases h1 : k + 1 ≤ r.toNat ∧ r.toNat - (k + 1) < bs.length
    · have h2 : k ≤ r.toNat ∧ r.toNat - k < (b :: bs).length := by simp only [List.length_cons]; omega
      have h3 : r.toNat - k = r.toNat - (k + 1) + 1 := by omega
      rw [dif_pos h1, dif_pos h2]
      simp [h3]
    · rw [dif_neg h1]
      by_cases hr : BitVec.ofNat 4 k = r
      · have hr' : r.toNat = k := by rw [← hr, hkk]
        rw [if_pos hr, dif_pos (by simp only [List.length_cons]; omega)]
        simp [hr']
      · have hr' : r.toNat ≠ k := fun h => hr (by apply BitVec.eq_of_toNat_eq; rw [hkk, h])
        rw [if_neg hr, dif_neg (by simp only [List.length_cons]; omega)]

/-! ## Key input -/

/-- No key is down exactly when `KEYS` is 0. -/
theorem lowestKey_none_iff {keys : Word} : lowestKey keys = none ↔ keys = 0 := by
  simp only [lowestKey, List.find?_eq_none, List.mem_range]
  constructor
  · intro h
    apply BitVec.eq_of_getLsbD_eq
    intro j hj
    simpa using h j hj
  · intro h j _
    simp [h]

/-- The key that is stored is down, and no lower one is. -/
theorem lowestKey_some {keys : Word} {k : Nat} (h : lowestKey keys = some k) :
    k < 16 ∧ keys.getLsbD k = true ∧ ∀ j, j < k → keys.getLsbD j = false := by
  rw [lowestKey, List.find?_range_eq_some] at h
  obtain ⟨hp, hr, hl⟩ := h
  exact ⟨List.mem_range.mp hr, hp, fun j hj => by simpa using hl j hj⟩

end Sys2Proof.Machine
end

