-- ==== Sys2Proof/Laws/PerInstr.lean ====
section
/-! SUPPORT. Per instruction: its word matches its row of spec/opcode_table.json (`match` and `mask`,
spec/30_encoding.md R65). -/

namespace Sys2Proof.Laws.TableRow

/-- The row's `mask`. -/
def mask : Instr → Word
  | .cls => 0xFFFF#16
  | .ret => 0xFFFF#16
  | .sys _ => 0xF000#16
  | .jp _ => 0xF000#16
  | .call _ => 0xF000#16
  | .seVK _ _ => 0xF000#16
  | .sneVK _ _ => 0xF000#16
  | .seVV _ _ _ => 0xF000#16
  | .ldVK _ _ => 0xF000#16
  | .addVK _ _ => 0xF000#16
  | .ldVV _ _ => 0xF00F#16
  | .or _ _ => 0xF00F#16
  | .and _ _ => 0xF00F#16
  | .xor _ _ => 0xF00F#16
  | .addVV _ _ => 0xF00F#16
  | .sub _ _ => 0xF00F#16
  | .shr _ _ => 0xF00F#16
  | .subn _ _ => 0xF00F#16
  | .shl _ _ => 0xF00F#16
  | .sneVV _ _ _ => 0xF000#16
  | .ldI _ => 0xF000#16
  | .jpV0 _ => 0xF000#16
  | .rnd _ _ => 0xF000#16
  | .drw _ _ _ => 0xF000#16
  | .skp _ => 0xF0FF#16
  | .sknp _ => 0xF0FF#16
  | .ldVDT _ => 0xF0FF#16
  | .ldVKey _ => 0xF0FF#16
  | .ldDTV _ => 0xF0FF#16
  | .ldSTV _ => 0xF0FF#16
  | .addIV _ => 0xF0FF#16
  | .ldFV _ => 0xF0FF#16
  | .ldBV _ => 0xF0FF#16
  | .ldMIV _ => 0xF0FF#16
  | .ldVMI _ => 0xF0FF#16

/-- The row's `match`. -/
def pattern : Instr → Word
  | .cls => 0x00E0#16
  | .ret => 0x00EE#16
  | .sys _ => 0x0000#16
  | .jp _ => 0x1000#16
  | .call _ => 0x2000#16
  | .seVK _ _ => 0x3000#16
  | .sneVK _ _ => 0x4000#16
  | .seVV _ _ _ => 0x5000#16
  | .ldVK _ _ => 0x6000#16
  | .addVK _ _ => 0x7000#16
  | .ldVV _ _ => 0x8000#16
  | .or _ _ => 0x8001#16
  | .and _ _ => 0x8002#16
  | .xor _ _ => 0x8003#16
  | .addVV _ _ => 0x8004#16
  | .sub _ _ => 0x8005#16
  | .shr _ _ => 0x8006#16
  | .subn _ _ => 0x8007#16
  | .shl _ _ => 0x800E#16
  | .sneVV _ _ _ => 0x9000#16
  | .ldI _ => 0xA000#16
  | .jpV0 _ => 0xB000#16
  | .rnd _ _ => 0xC000#16
  | .drw _ _ _ => 0xD000#16
  | .skp _ => 0xE09E#16
  | .sknp _ => 0xE0A1#16
  | .ldVDT _ => 0xF007#16
  | .ldVKey _ => 0xF00A#16
  | .ldDTV _ => 0xF015#16
  | .ldSTV _ => 0xF018#16
  | .addIV _ => 0xF01E#16
  | .ldFV _ => 0xF029#16
  | .ldBV _ => 0xF033#16
  | .ldMIV _ => 0xF055#16
  | .ldVMI _ => 0xF065#16

/-- The word of the instruction selects its row: `w & mask = match` (R65). -/
def Statement (i : Instr) : Prop := encode i &&& mask i = pattern i

theorem cls : Statement (.cls) := rfl
theorem ret : Statement (.ret) := rfl
theorem sys (nnn : Addr12) : Statement (.sys nnn) := (packNNN_mask _ _).trans rfl
theorem jp (nnn : Addr12) : Statement (.jp nnn) := (packNNN_mask _ _).trans rfl
theorem call (nnn : Addr12) : Statement (.call nnn) := (packNNN_mask _ _).trans rfl
theorem seVK (x : Reg) (kk : Byte) : Statement (.seVK x kk) := (packXKK_mask _ _ _).trans rfl
theorem sneVK (x : Reg) (kk : Byte) : Statement (.sneVK x kk) := (packXKK_mask _ _ _).trans rfl
theorem seVV (x y : Reg) (n : Nibble) : Statement (.seVV x y n) := (packXYN_mask _ _ _ _).trans rfl
theorem ldVK (x : Reg) (kk : Byte) : Statement (.ldVK x kk) := (packXKK_mask _ _ _).trans rfl
theorem addVK (x : Reg) (kk : Byte) : Statement (.addVK x kk) := (packXKK_mask _ _ _).trans rfl
theorem ldVV (x y : Reg) : Statement (.ldVV x y) := (packXYN_maskLow _ _ _ _).trans rfl
theorem or (x y : Reg) : Statement (.or x y) := (packXYN_maskLow _ _ _ _).trans rfl
theorem and (x y : Reg) : Statement (.and x y) := (packXYN_maskLow _ _ _ _).trans rfl
theorem xor (x y : Reg) : Statement (.xor x y) := (packXYN_maskLow _ _ _ _).trans rfl
theorem addVV (x y : Reg) : Statement (.addVV x y) := (packXYN_maskLow _ _ _ _).trans rfl
theorem sub (x y : Reg) : Statement (.sub x y) := (packXYN_maskLow _ _ _ _).trans rfl
theorem shr (x y : Reg) : Statement (.shr x y) := (packXYN_maskLow _ _ _ _).trans rfl
theorem subn (x y : Reg) : Statement (.subn x y) := (packXYN_maskLow _ _ _ _).trans rfl
theorem shl (x y : Reg) : Statement (.shl x y) := (packXYN_maskLow _ _ _ _).trans rfl
theorem sneVV (x y : Reg) (n : Nibble) : Statement (.sneVV x y n) := (packXYN_mask _ _ _ _).trans rfl
theorem ldI (nnn : Addr12) : Statement (.ldI nnn) := (packNNN_mask _ _).trans rfl
theorem jpV0 (nnn : Addr12) : Statement (.jpV0 nnn) := (packNNN_mask _ _).trans rfl
theorem rnd (x : Reg) (kk : Byte) : Statement (.rnd x kk) := (packXKK_mask _ _ _).trans rfl
theorem drw (x y : Reg) (n : Nibble) : Statement (.drw x y n) := (packXYN_mask _ _ _ _).trans rfl
theorem skp (x : Reg) : Statement (.skp x) := (packXKK_maskLow _ _ _).trans rfl
theorem sknp (x : Reg) : Statement (.sknp x) := (packXKK_maskLow _ _ _).trans rfl
theorem ldVDT (x : Reg) : Statement (.ldVDT x) := (packXKK_maskLow _ _ _).trans rfl
theorem ldVKey (x : Reg) : Statement (.ldVKey x) := (packXKK_maskLow _ _ _).trans rfl
theorem ldDTV (x : Reg) : Statement (.ldDTV x) := (packXKK_maskLow _ _ _).trans rfl
theorem ldSTV (x : Reg) : Statement (.ldSTV x) := (packXKK_maskLow _ _ _).trans rfl
theorem addIV (x : Reg) : Statement (.addIV x) := (packXKK_maskLow _ _ _).trans rfl
theorem ldFV (x : Reg) : Statement (.ldFV x) := (packXKK_maskLow _ _ _).trans rfl
theorem ldBV (x : Reg) : Statement (.ldBV x) := (packXKK_maskLow _ _ _).trans rfl
theorem ldMIV (x : Reg) : Statement (.ldMIV x) := (packXKK_maskLow _ _ _).trans rfl
theorem ldVMI (x : Reg) : Statement (.ldVMI x) := (packXKK_maskLow _ _ _).trans rfl

end Sys2Proof.Laws.TableRow
end

