-- ==== Sys2Proof/Tests/Slice0.lean ====
section
/-! SUPPORT. The model's own tests. Expected values come from the encodings of spec/30_encoding.md R65 and the vectors
of spec/95_test_vectors.md, whose ids stand beside the tests. The witnesses show, for each statement with hypotheses, a
concrete state and operands that meet them, at the ends of their ranges. -/

open Sys2Proof Sys2Proof.Machine

namespace Sys2Proof.Tests

/-! ## Ill-formed terms are refused -/

theorem test_wellFormed_sysCls : (Instr.sys 0x0E0#12).wellFormed = false := by decide
theorem test_wellFormed_sysRet : (Instr.sys 0x0EE#12).wellFormed = false := by decide
theorem test_wellFormed_sysOther : (Instr.sys 0x0E1#12).wellFormed = true := by decide
/-- R70: a register field of 15 still stands for a word. -/
theorem test_wellFormed_reg15 : (Instr.drw 15#4 15#4 0#4).wellFormed = true := by decide

/-! ## Every constructor's word, written out from its row of R65

The terms for families 5 and 9 hold the nibble that their rows ignore (R67), as the model keeps it (log 13). -/

theorem test_decode_cls : decodeWord 0b0000000011100000#16 = .ok .cls := by decide
theorem test_decode_ret : decodeWord 0b0000000011101110#16 = .ok .ret := by decide
theorem test_decode_sys : decodeWord 0b0000101010111100#16 = .ok (.sys 0xABC#12) := by decide
theorem test_decode_jp : decodeWord 0b0001001000110100#16 = .ok (.jp 0x234#12) := by decide
theorem test_decode_call : decodeWord 0b0010010001010110#16 = .ok (.call 0x456#12) := by decide
theorem test_decode_seVK : decodeWord 0b0011000101000010#16 = .ok (.seVK 1#4 0x42#8) := by decide
theorem test_decode_sneVK : decodeWord 0b0100001000001000#16 = .ok (.sneVK 2#4 0x08#8) := by decide
theorem test_decode_seVV : decodeWord 0b0101001101001111#16 = .ok (.seVV 3#4 4#4 15#4) := by decide
theorem test_decode_ldVK : decodeWord 0b0110101000101100#16 = .ok (.ldVK 10#4 0x2C#8) := by decide
theorem test_decode_addVK : decodeWord 0b0111000111001000#16 = .ok (.addVK 1#4 0xC8#8) := by decide
theorem test_decode_ldVV : decodeWord 0b1000000100100000#16 = .ok (.ldVV 1#4 2#4) := by decide
theorem test_decode_or : decodeWord 0b1000000100100001#16 = .ok (.or 1#4 2#4) := by decide
theorem test_decode_and : decodeWord 0b1000000100100010#16 = .ok (.and 1#4 2#4) := by decide
theorem test_decode_xor : decodeWord 0b1000000100100011#16 = .ok (.xor 1#4 2#4) := by decide
theorem test_decode_addVV : decodeWord 0b1000000100100100#16 = .ok (.addVV 1#4 2#4) := by decide
theorem test_decode_sub : decodeWord 0b1000000100100101#16 = .ok (.sub 1#4 2#4) := by decide
theorem test_decode_shr : decodeWord 0b1000000100100110#16 = .ok (.shr 1#4 2#4) := by decide
theorem test_decode_subn : decodeWord 0b1000000100100111#16 = .ok (.subn 1#4 2#4) := by decide
theorem test_decode_shl : decodeWord 0b1000000100101110#16 = .ok (.shl 1#4 2#4) := by decide
theorem test_decode_sneVV : decodeWord 0b1001000100100111#16 = .ok (.sneVV 1#4 2#4 7#4) := by decide
theorem test_decode_ldI : decodeWord 0b1010001100000001#16 = .ok (.ldI 0x301#12) := by decide
theorem test_decode_jpV0 : decodeWord 0b1011001011111110#16 = .ok (.jpV0 0x2FE#12) := by decide
theorem test_decode_rnd : decodeWord 0b1100001100001111#16 = .ok (.rnd 3#4 0x0F#8) := by decide
theorem test_decode_drw : decodeWord 0b1101000100101111#16 = .ok (.drw 1#4 2#4 15#4) := by decide
theorem test_decode_skp : decodeWord 0b1110000110011110#16 = .ok (.skp 1#4) := by decide
theorem test_decode_sknp : decodeWord 0b1110000110100001#16 = .ok (.sknp 1#4) := by decide
theorem test_decode_ldVDT : decodeWord 0b1111010100000111#16 = .ok (.ldVDT 5#4) := by decide
theorem test_decode_ldVKey : decodeWord 0b1111001100001010#16 = .ok (.ldVKey 3#4) := by decide
theorem test_decode_ldDTV : decodeWord 0b1111011000010101#16 = .ok (.ldDTV 6#4) := by decide
theorem test_decode_ldSTV : decodeWord 0b1111001000011000#16 = .ok (.ldSTV 2#4) := by decide
theorem test_decode_addIV : decodeWord 0b1111001000011110#16 = .ok (.addIV 2#4) := by decide
theorem test_decode_ldFV : decodeWord 0b1111010000101001#16 = .ok (.ldFV 4#4) := by decide
theorem test_decode_ldBV : decodeWord 0b1111011100110011#16 = .ok (.ldBV 7#4) := by decide
theorem test_decode_ldMIV : decodeWord 0b1111111001010101#16 = .ok (.ldMIV 14#4) := by decide
theorem test_decode_ldVMI : decodeWord 0b1111001001100101#16 = .ok (.ldVMI 2#4) := by decide

/-! ## Words that decode to nothing (al42, al43, ky8, im24, fp2) -/

theorem test_illegal_8128 : decodeWord 0x8128#16 = .error (.illegalInstruction 0x8128#16) := by decide
theorem test_illegal_8FF8 : decodeWord 0x8FF8#16 = .error (.illegalInstruction 0x8FF8#16) := by decide
theorem test_illegal_E100 : decodeWord 0xE100#16 = .error (.illegalInstruction 0xE100#16) := by decide
theorem test_illegal_F130 : decodeWord 0xF130#16 = .error (.illegalInstruction 0xF130#16) := by decide
theorem test_truncated : decode [0x12#8] = .error .truncated := by decide
theorem test_decode_rest : decode [0x12#8, 0x34#8, 0x56#8] = .ok (.jp 0x234#12, [0x56#8]) := by decide

/-! ## One step on a small state -/

/-- The reset state after `load` of one instruction word. -/
def ready (w : Word) : State :=
  { State.reset with mem := Memory.writeBytes [] 0x200 (wordBytes w), romLen := 2, loaded := true }

/-- `V[1]` and `V[2]` set. -/
def ready2 (w : Word) (a b : Byte) : State := ((ready w).setReg 1#4 a).setReg 2#4 b

/-- A field of the state after one step. -/
def got {α : Type} (f : State → α) (s : State) : Option α :=
  match step s with
  | .next t => some (f t)
  | .fault _ => none
  | .refused _ => none

/-- What a step at 0x200 with one word leaves in `V[1]`, `V[15]` and `pc`. -/
def gotAlu (w : Word) (a b : Byte) : Option (Byte × Byte × Word) :=
  got (fun t => (t.reg 1#4, t.reg 15#4, t.pc)) (ready2 w a b)

/-- The fault record after a step: code, `pc`, `ir`, `addr`. -/
def gotFault (s : State) : Option (Nat × Word × Word × Nat) :=
  got (fun t => (t.fault.cause.code, t.fault.pc, t.fault.ir, t.fault.addr)) s

/-- The `KEYS` of the vectors, given to the meanings that take the sample as an argument. -/
def gotPc (r : Host.Outcome State Fault Refusal) : Option (Byte × Word) :=
  match r with
  | .next t => some (t.reg 1#4, t.pc)
  | .fault _ => none
  | .refused _ => none

/-- A machine whose platform attaches keys that are polled, and a font of two bytes at 0x050. -/
def platform : Config :=
  { keys := .provider, keywait := .pollRetry
    font := some { glyphAddr := Vector.replicate 256 0x050#16, base := 0x050, bytes := [0xF0#8, 0x90#8] } }

/-- The loaded state of that machine. -/
def onPlatform : State := { State.resetFor platform with loaded := true }

/-! ### Control transfer (2.3) -/

theorem test_sys_cf2 : got (fun t => (t.pc, t.sp, t.fault.cause)) (ready 0x0ABC#16) = some (0x202, 0, .none) := by decide
theorem test_jp_cf5 : got State.pc (ready 0x1ABC#16) = some 0xABC := by decide
theorem test_call_cf7 : got (fun t => (t.sp, t.stack[15], t.pc)) { ready 0x2456#16 with sp := 14 } =
    some (15, 0x202, 0x456) := by decide
theorem test_call_cf8 : gotFault { ready 0x2456#16 with sp := 15 } = some (2, 0x200, 0x2456, 0) := by decide
theorem test_ret_cf9 : got (fun t => (t.pc, t.sp, t.stack[1]))
    { ready 0x00EE#16 with sp := 1, stack := State.reset.stack.set 1 0x2AC } = some (0x2AC, 0, 0x2AC) := by decide
theorem test_ret_cf10 : gotFault (ready 0x00EE#16) = some (3, 0x200, 0x00EE, 0) := by decide
theorem test_seVK_cf11 : gotAlu 0x3142#16 0x42 0 = some (0x42, 0, 0x204) := by decide
theorem test_seVK_cf12 : gotAlu 0x3143#16 0x42 0 = some (0x42, 0, 0x202) := by decide
theorem test_sneVK_cf13 : gotAlu 0x4142#16 0x42 0 = some (0x42, 0, 0x202) := by decide
theorem test_sneVK_cf14 : gotAlu 0x4143#16 0x42 0 = some (0x42, 0, 0x204) := by decide
theorem test_seVV_cf16 : gotAlu 0x5120#16 5 6 = some (5, 0, 0x202) := by decide
theorem test_seVV_cf17 : gotAlu 0x512F#16 5 5 = some (5, 0, 0x204) := by decide
theorem test_sneVV_cf18 : gotAlu 0x9120#16 5 6 = some (5, 0, 0x204) := by decide
theorem test_sneVV_cf19 : gotAlu 0x9127#16 5 5 = some (5, 0, 0x202) := by decide
theorem test_jpV0_cf22 : got State.pc ((ready 0xBFFF#16).setReg 0#4 0xFF) = some 0x10FE := by decide
theorem test_jpV0_cf23 : got State.pc ((ready 0xB2FF#16).setReg 0#4 0x01) = some 0x300 := by decide

/-! ### Arithmetic and logic (2.4) -/

theorem test_ldVK_al1 : gotAlu 0x61FF#16 0 0 = some (0xFF, 0, 0x202) := by decide
theorem test_addVK_al3 : got (fun t => (t.reg 1#4, t.reg 15#4)) ((ready2 0x7101#16 0xFF 0).setReg 15#4 0) =
    some (0, 0) := by decide
theorem test_ldVV_al4 : gotAlu 0x8120#16 0x11 0x99 = some (0x99, 0, 0x202) := by decide
theorem test_or_al5 : got (fun t => (t.reg 1#4, t.reg 15#4)) ((ready2 0x8121#16 0xF0 0x0F).setReg 15#4 1) =
    some (0xFF, 1) := by decide
theorem test_and_al6 : gotAlu 0x8122#16 0xFC 0x3F = some (0x3C, 0, 0x202) := by decide
theorem test_xor_al7 : gotAlu 0x8123#16 0x3C 0xFF = some (0xC3, 0, 0x202) := by decide
theorem test_addVV_al11 : gotAlu 0x8124#16 200 55 = some (255, 0, 0x202) := by decide
theorem test_addVV_al13 : gotAlu 0x8114#16 0x80 0 = some (0, 1, 0x202) := by decide
theorem test_sub_al15 : gotAlu 0x8125#16 0x10 0x20 = some (0xF0, 0, 0x202) := by decide
theorem test_sub_al16 : gotAlu 0x8125#16 7 7 = some (0, 0, 0x202) := by decide
theorem test_shr_T4a : gotAlu 0x8126#16 0x03 0xAA = some (0x01, 1, 0x202) := by decide
theorem test_shr_al21 : gotAlu 0x8126#16 0x80 0xAA = some (0x40, 0, 0x202) := by decide
theorem test_subn_al24 : gotAlu 0x8127#16 0x10 0x20 = some (0x10, 1, 0x202) := by decide
theorem test_subn_al25 : gotAlu 0x8127#16 0x20 0x10 = some (0xF0, 0, 0x202) := by decide
theorem test_shl_al28 : gotAlu 0x812E#16 0xC1 0xAA = some (0x82, 1, 0x202) := by decide
theorem test_shl_al41 : gotFault (ready 0x81FE#16) = some (1, 0x200, 0x81FE, 0) := by decide
/-- al32: the byte is the argument. -/
theorem test_rnd_al32 : gotPc (rndWith 0xA7#8 1#4 0x0F#8 (ready 0xC10F#16)) = some (0x07, 0x202) := by decide
/-- al33: the step's own byte is a free value, masked to 0. -/
theorem test_rnd_al33 : got (fun t => t.rndDraws) (ready 0xC100#16) = some 1 := by decide

/-! ### Index register and memory (2.5) -/

theorem test_ldI_im1 : got State.index (ready 0xAFFF#16) = some 0xFFF := by decide
theorem test_addIV_im4 : got (fun t => (t.index, t.reg 15#4)) { ready2 0xF11E#16 1 0 with index := 0xFFF } =
    some (0x1000, 0) := by decide
theorem test_addIV_im5 : got State.index { ready2 0xF11E#16 2 0 with index := 0xFFFF } = some 1 := by decide
theorem test_ldFV_im22 : gotFault (ready 0xF129#16) = some (7, 0x200, 0xF129, 0) := by decide
theorem test_ldFV_font : gotPc (execLdFV 1#4 onPlatform) = some (0, 0x202) := by decide
theorem test_ldBV_im10 : got (fun t => (t.mem.readBytes 0xFFD 3, t.index))
    { ready2 0xF133#16 128 0 with index := 0xFFD } = some ([1, 2, 8], 0xFFD) := by decide
theorem test_ldBV_im11 : gotFault { ready2 0xF133#16 128 0 with index := 0xFFE } =
    some (4, 0x200, 0xF133, 0x1000) := by decide
theorem test_ldMIV_im18 : got (fun t => t.mem.read 0xFFF) { (ready 0xF055#16).setReg 0#4 0xDE with index := 0xFFF } =
    some 0xDE := by decide
theorem test_ldMIV_im19 : gotFault { ready 0xF155#16 with index := 0xFFF } = some (4, 0x200, 0xF155, 0x1000) := by
  decide
theorem test_ldVMI_im17 : got (fun t => (t.reg 0#4, t.reg 1#4, t.reg 2#4, t.reg 3#4))
    { (ready 0xF265#16).setReg 3#4 0x55 with
      index := 0x400, mem := Memory.writeBytes (ready 0xF265#16).mem 0x400 [9, 8, 7] } = some (9, 8, 7, 0x55) := by
  decide
theorem test_ldVMI_im20 : gotFault { ready 0xF165#16 with index := 0x1FF } = some (5, 0x200, 0xF165, 0x1FF) := by
  decide

/-! ### Display (2.6) -/

theorem test_cls_dp1 : got (fun t => (t.fb.get 3 4, t.dirty)) { ready 0x00E0#16 with
    fb := Framebuffer.blank.set 3 4 true } = some (false, true) := by decide
/-- dp5: the sprite wraps on both axes. -/
theorem test_drw_dp5 : got (fun t => ([t.fb.get 31 63, t.fb.get 31 0, t.fb.get 0 63, t.fb.get 0 0, t.fb.get 1 0],
      t.reg 15#4, t.index))
    { ready2 0xD122#16 63 31 with index := 0x300, mem := Memory.writeBytes (ready 0xD122#16).mem 0x300 [0xC0, 0xC0] } =
    some ([true, true, true, true, false], 0, 0x302) := by decide
/-- dp7: a lit cell is erased, the flag tells. -/
theorem test_drw_dp7 : got (fun t => ([t.fb.get 0 0, t.fb.get 0 1, t.fb.get 0 2, t.fb.get 0 3, t.fb.get 0 4],
      t.reg 15#4, t.dirty))
    { ready2 0xD121#16 0 0 with
      index := 0x300, fb := Framebuffer.blank.set 0 3 true
      mem := Memory.writeBytes (ready 0xD121#16).mem 0x300 [0xF0] } =
    some ([true, true, true, false, false], 1, true) := by decide
/-- dp10: a draw of no rows reads nothing. -/
theorem test_drw_dp10 : got (fun t => (t.reg 15#4, t.index, t.dirty, t.fault.cause))
    ((ready 0xD120#16).setReg 15#4 1) = some (0, 0, true, .none) := by decide

/-! ### Keys and timers (2.7, 2.8) -/

theorem test_skp_ky1 : gotPc (skpWith 0x0400#16 1#4 (ready2 0xE19E#16 0x0A 0)) = some (0x0A, 0x204) := by decide
theorem test_skp_ky5 : gotPc (skpWith 0xFFFF#16 1#4 (ready2 0xE19E#16 0x1A 0)) = some (0x1A, 0x202) := by decide
theorem test_sknp_ky2 : gotPc (sknpWith 0x0400#16 1#4 (ready2 0xE1A1#16 0x0A 0)) = some (0x0A, 0x202) := by decide
theorem test_sknp_ky4 : gotAlu 0xE1A1#16 0x0A 0 = some (0x0A, 0, 0x204) := by decide
theorem test_ldVKey_ky9 : gotAlu 0xF10A#16 0x77 0 = some (0, 0, 0x202) := by decide
theorem test_ldVKey_ky11 : gotPc (ldVKeyWith 0x0090#16 1#4 onPlatform) = some (4, 0x202) := by decide
theorem test_ldVDT_tm1 : got (fun t => (t.reg 1#4, t.dt)) { ready 0xF107#16 with dt := 0x3C } = some (0x3C, 0x3C) := by
  decide
theorem test_ldDTV_tm2 : got (fun t => (t.dt, t.st)) (ready2 0xF115#16 0xFF 0) = some (0xFF, 0) := by decide
theorem test_ldSTV_tm3 : got (fun t => (t.dt, t.st)) (ready2 0xF118#16 0x02 0) = some (0, 0x02) := by decide
theorem test_tick_tm6 : ({ State.reset with dt := 1 }.tick.dt, { State.reset with dt := 1 }.tick.st) = (0, 0) := by
  decide

/-! ### The step, reset and load (2.1, 2.2, 2.9) -/

theorem test_step_st2 : got (fun t => (t.reg 0#4, t.pc))
    { State.reset with loaded := true, pc := 0x301, mem := [(0x301, 0x60), (0x302, 0x55)] } = some (0x55, 0x303) := by
  decide
theorem test_step_st5 : gotFault { ready 0 with pc := 0xFFF } = some (4, 0xFFF, 0, 0x1000) := by decide
theorem test_step_al43 : gotFault (ready 0x8FF8#16) = some (6, 0x200, 0x8FF8, 0) := by decide
theorem test_step_fp1 : gotFault (ready 0xFF29#16) = some (1, 0x200, 0xFF29, 0) := by decide
theorem test_step_ld7 : got State.pc State.reset = none := by decide
theorem test_load_ld3 : (State.reset.load [0x12, 0x00]).mem = [(0x200, 0x12)] ∧
    (State.reset.load [0x12, 0x00]).romLen = 2 ∧ (State.reset.load [0x12, 0x00]).loaded = true := by decide
theorem test_init_ld5 : ((ready 0x6007#16).setReg 0#4 7).init = State.reset := by decide
/-- The program that `withFetchWord` places is the next to run, also where `pc` could not be fetched. -/
theorem test_withFetchWord : got State.pc (State.withFetchWord { State.reset with pc := 0x1000 } 16 0x1ABC) =
    some 0xABC := by decide

/-! ## The statements' hypotheses can be met -/

/-- A loaded state in the middle of the address space's corners: no fault, an empty stack. -/
def base : State := ready 0x0000#16

/-- The answer is a next state of which `p` holds. -/
def nextWith (r : Host.Outcome State Fault Refusal) (p : State → Bool) : Bool :=
  match r with
  | .next t => p t
  | .fault _ => false
  | .refused _ => false

theorem nextWith_exists {r : Host.Outcome State Fault Refusal} {p : State → Bool} (h : nextWith r p = true) :
    ∃ t, r = .next t ∧ p t = true := by
  cases r with
  | next t => exact ⟨t, rfl, h⟩
  | fault f => exact absurd h Bool.false_ne_true
  | refused f => exact absurd h Bool.false_ne_true

theorem witness_EncodedInstructionDecodesBack :
    (Instr.sys 0xFFF#12).wellFormed = true ∧ (Instr.drw 15#4 15#4 15#4).wellFormed = true ∧
    (Instr.seVV 0#4 0#4 15#4).wellFormed = true ∧ (Instr.ldVMI 15#4).wellFormed = true := by decide
theorem witness_DecodedWordEncodesBack :
    decodeWord 0x0000#16 = .ok (.sys 0#12) ∧ decodeWord 0xFF65#16 = .ok (.ldVMI 15#4) := by decide
theorem witness_IllegalWordsAreExactlyThese :
    decodeWord 0x8008#16 = .error (.illegalInstruction 0x8008#16) ∧
    decodeWord 0x8FFF#16 = .error (.illegalInstruction 0x8FFF#16) ∧
    decodeWord 0xE09D#16 = .error (.illegalInstruction 0xE09D#16) ∧
    decodeWord 0xFFFF#16 = .error (.illegalInstruction 0xFFFF#16) := by decide
theorem witness_FamilyZeroIsClsRetOrNothing :
    (0x0FFF#16).toNat < 0x1000 ∧ 0x0FFF#16 ≠ 0x00E0#16 ∧ 0x0FFF#16 ≠ 0x00EE#16 ∧
    (0x00E1#16).toNat < 0x1000 ∧ 0x00E1#16 ≠ 0x00E0#16 ∧ 0x00E1#16 ≠ 0x00EE#16 := by decide
theorem witness_StepRunsTheDecodedInstruction_low :
    (ready 0x1ABC#16).loaded = true ∧ (ready 0x1ABC#16).fault.cause = .none ∧
    0x200 ≤ (ready 0x1ABC#16).pc.toNat ∧ (ready 0x1ABC#16).pc.toNat ≤ 0xFFE ∧
    decodeWord ((ready 0x1ABC#16).mem.read (ready 0x1ABC#16).pc.toNat ++
      (ready 0x1ABC#16).mem.read ((ready 0x1ABC#16).pc.toNat + 1)) = .ok (.jp 0xABC#12) := by decide
/-- The last address a fetch accepts. -/
def atTop : State := { base with pc := 0xFFE, mem := [(0xFFE, 0x60), (0xFFF, 0x07)] }
theorem witness_StepRunsTheDecodedInstruction_high :
    atTop.loaded = true ∧ atTop.fault.cause = .none ∧ 0x200 ≤ atTop.pc.toNat ∧ atTop.pc.toNat ≤ 0xFFE ∧
    decodeWord (atTop.mem.read atTop.pc.toNat ++ atTop.mem.read (atTop.pc.toNat + 1)) = .ok (.ldVK 0#4 7#8) := by
  decide
/-- A halted state. -/
def halted : State := base.raise { cause := .stackOverflow, addr := 0 } (encode (.call 0#12))
theorem witness_StepIsStuckExactlyWhenNotEnabled :
    State.reset.loaded = false ∧ (halted.loaded = true ∧ halted.fault.cause ≠ .none) ∧
    (base.loaded = true ∧ base.fault.cause = .none) := by decide
theorem witness_FetchOutsideProgramSpaceFaults :
    base.loaded = true ∧ base.fault.cause = .none ∧ ({ base with pc := 0x1FF } : State).pc.toNat < 0x200 ∧
    ({ base with pc := 0xFFF } : State).pc.toNat = 0xFFF ∧ 0x1000 ≤ ({ base with pc := 0x1000 } : State).pc.toNat ∧
    0x1000 ≤ ({ base with pc := 0x10FE } : State).pc.toNat := by decide
theorem witness_IllegalWordFaults_low :
    (ready 0x8128#16).loaded = true ∧ (ready 0x8128#16).fault.cause = .none ∧
    0x200 ≤ (ready 0x8128#16).pc.toNat ∧ (ready 0x8128#16).pc.toNat ≤ 0xFFE ∧
    decodeWord ((ready 0x8128#16).mem.read (ready 0x8128#16).pc.toNat ++
      (ready 0x8128#16).mem.read ((ready 0x8128#16).pc.toNat + 1)) = .error (.illegalInstruction 0x8128#16) := by decide
/-- An illegal word at the last address a fetch accepts. -/
def illegalAtTop : State := { base with pc := 0xFFE, mem := [(0xFFE, 0xFF), (0xFFF, 0xFF)] }
theorem witness_IllegalWordFaults_high :
    illegalAtTop.loaded = true ∧ illegalAtTop.fault.cause = .none ∧ 0x200 ≤ illegalAtTop.pc.toNat ∧
    illegalAtTop.pc.toNat ≤ 0xFFE ∧
    decodeWord (illegalAtTop.mem.read illegalAtTop.pc.toNat ++ illegalAtTop.mem.read (illegalAtTop.pc.toNat + 1)) =
      .error (.illegalInstruction 0xFFFF#16) := by decide
theorem witness_FaultingStepWritesOnlyTheRecord_decoded :
    ∃ t, step (ready 0xF065#16) = .next t ∧ decide (t.fault.cause ≠ .none ∧ 0x200 ≤ (ready 0xF065#16).pc.toNat ∧
      (ready 0xF065#16).pc.toNat ≤ 0xFFE) = true := nextWith_exists (by decide)
theorem witness_FaultingStepWritesOnlyTheRecord_fetch :
    ∃ t, step { base with pc := 0x1FF } = .next t ∧ decide (t.fault.cause ≠ .none ∧
      ¬ (0x200 ≤ ({ base with pc := 0x1FF } : State).pc.toNat ∧
        ({ base with pc := 0x1FF } : State).pc.toNat ≤ 0xFFE)) = true := nextWith_exists (by decide)
theorem witness_FaultingStepWritesOnlyTheRecord_exec :
    ∃ t, exec (.call 0#12) { base with sp := 15 } = .next t ∧ (t.fault.cause == .stackOverflow) = true :=
  nextWith_exists (by decide)
theorem witness_RegisterFifteenFaultsFirst :
    flagReg ∈ testedRegs (.shr 0#4 15#4) ∧ flagReg ∈ testedRegs (.drw 15#4 0#4 0#4) ∧
    flagReg ∈ testedRegs (.ldFV 15#4) ∧ flagReg ∈ testedRegs (.rnd 15#4 0#8) := by decide
theorem witness_CausesAreRaisedAsTheTableSays :
    base.fault.cause = .none ∧
    nextWith (exec (.shl 0#4 15#4) base) (fun t => t.fault.cause == .regIndex) = true ∧
    nextWith (exec (.call 0#12) { base with sp := 15 }) (fun t => t.fault.cause == .stackOverflow) = true ∧
    nextWith (exec .ret base) (fun t => t.fault.cause == .stackUnderflow) = true ∧
    nextWith (exec (.ldFV 14#4) base) (fun t => t.fault.cause == .noFont) = true ∧
    nextWith (exec (.ldMIV 14#4) { base with index := 0xFF2 }) (fun t => t.fault.cause == .memRange) = true ∧
    nextWith (exec (.ldMIV 14#4) { base with index := 0x1FF }) (fun t => t.fault.cause == .memGuard) = true ∧
    nextWith (exec (.ldMIV 14#4) { base with index := 0xFF1 }) (fun t => t.fault.cause == .none) = true ∧
    nextWith (exec (.drw 0#4 0#4 0#4) base) (fun t => t.fault.cause == .none) = true ∧
    nextWith (exec (.drw 0#4 0#4 1#4) base) (fun t => t.fault.cause == .memGuard) = true := by decide
theorem witness_CallPushesTheReturnAddress :
    base.sp.val + 1 < 16 ∧ ({ base with sp := 14 } : State).sp.val + 1 < 16 ∧
    ({ base with sp := 15 } : State).sp.val = 15 := by decide
theorem witness_ReturnPopsTheReturnAddress :
    0 < ({ base with sp := 1 } : State).sp.val ∧ 0 < ({ base with sp := 15 } : State).sp.val ∧ base.sp.val = 0 := by
  decide
theorem witness_SkipsComparingAnImmediate : (0#4 : Reg) ≠ 15#4 ∧ (14#4 : Reg) ≠ 15#4 := by decide
theorem witness_SkipsComparingRegisters :
    ((14#4 : Reg) ≠ 15#4 ∧ (14#4 : Reg) ≠ 15#4) ∧ ((0#4 : Reg) = 15#4 ∨ (15#4 : Reg) = 15#4) := by decide
theorem witness_CallThenReturnComesBack : base.sp.val < 15 ∧ ({ base with sp := 14 } : State).sp.val < 15 := by decide
theorem witness_FifteenNestedCallsSucceed :
    base.sp.val = 0 ∧ (List.replicate 15 0x200#12).length ≤ 15 ∧ (List.replicate 15 0x200#12).length = 15 := by decide
theorem witness_ImmediateLoadAndAdd : (0#4 : Reg) ≠ 15#4 ∧ (14#4 : Reg) ≠ 15#4 := by decide
theorem witness_CopyAndLogicWriteNoFlag :
    ((0#4 : Reg) ≠ 15#4 ∧ (14#4 : Reg) ≠ 15#4) ∧ ((15#4 : Reg) = 15#4 ∨ (0#4 : Reg) = 15#4) := by decide
theorem witness_AddSetsCarry :
    ((14#4 : Reg) ≠ 15#4 ∧ (14#4 : Reg) ≠ 15#4) ∧ ((15#4 : Reg) = 15#4 ∨ (0#4 : Reg) = 15#4) := by decide
theorem witness_SubSetsStrictlyGreater :
    ((14#4 : Reg) ≠ 15#4 ∧ (0#4 : Reg) ≠ 15#4) ∧ ((0#4 : Reg) = 15#4 ∨ (15#4 : Reg) = 15#4) := by decide
theorem witness_SubnSetsStrictlyGreater :
    ((0#4 : Reg) ≠ 15#4 ∧ (14#4 : Reg) ≠ 15#4) ∧ ((15#4 : Reg) = 15#4 ∨ (15#4 : Reg) = 15#4) := by decide
theorem witness_ShiftsMoveOneBitOut :
    ((0#4 : Reg) ≠ 15#4 ∧ (14#4 : Reg) ≠ 15#4) ∧ ((0#4 : Reg) = 15#4 ∨ (15#4 : Reg) = 15#4) := by decide
theorem witness_RandomByteIsMasked : (0#4 : Reg) ≠ 15#4 ∧ (14#4 : Reg) ≠ 15#4 := by decide
theorem witness_AddToIndexWrapsSilently : (0#4 : Reg) ≠ 15#4 ∧ (14#4 : Reg) ≠ 15#4 := by decide
theorem witness_GlyphAddressOrNoFont :
    (0#4 : Reg) ≠ 15#4 ∧ base.cfg.font = none ∧ ∃ f, onPlatform.cfg.font = some f :=
  ⟨by decide, by decide, _, rfl⟩
theorem witness_DecimalDigitsAreStored :
    (14#4 : Reg) ≠ 15#4 ∧ base.mem.wf = true ∧
    (0x200 ≤ ({ base with index := 0x200 } : State).index.toNat ∧
      ({ base with index := 0x200 } : State).index.toNat + 2 ≤ 0xFFF) ∧
    (0x200 ≤ ({ base with index := 0xFFD } : State).index.toNat ∧
      ({ base with index := 0xFFD } : State).index.toNat + 2 ≤ 0xFFF) ∧
    ({ base with index := 0x1FF } : State).index.toNat < 0x200 ∧
    ({ base with index := 0xFFE } : State).index.toNat + 2 > 0xFFF := by decide
theorem witness_RegistersAreStored :
    (14#4 : Reg) ≠ 15#4 ∧ base.mem.wf = true ∧
    (0x200 ≤ ({ base with index := 0x200 } : State).index.toNat ∧
      ({ base with index := 0x200 } : State).index.toNat + (14#4 : Reg).toNat ≤ 0xFFF) ∧
    (0x200 ≤ ({ base with index := 0xFF1 } : State).index.toNat ∧
      ({ base with index := 0xFF1 } : State).index.toNat + (14#4 : Reg).toNat ≤ 0xFFF) ∧
    ({ base with index := 0x1FF } : State).index.toNat < 0x200 ∧
    ({ base with index := 0xFF2 } : State).index.toNat + (14#4 : Reg).toNat > 0xFFF := by decide

/-- Program space is readable on every machine. -/
theorem readable_program {s : State} {a : Nat} (h : 0x200 ≤ a) (h' : a ≤ 0xFFF) : readable s a := ⟨h', .inl h⟩

/-- Nothing below program space is readable without a font. -/
theorem not_readable {s : State} {a : Nat} (hf : s.cfg.font = none) (h : a < 0x200) : ¬ readable s a := by
  rintro ⟨_, h1 | ⟨f, hm, _⟩⟩
  · omega
  · rw [hf] at hm
    exact absurd hm (Option.not_mem_none f)

theorem witness_RegistersAreLoaded_program :
    (14#4 : Reg) ≠ 15#4 ∧ ∀ k, k ≤ (14#4 : Reg).toNat →
      readable { base with index := 0xFF1 } (({ base with index := 0xFF1 } : State).index.toNat + k) :=
  ⟨by decide, fun k hk => readable_program
    (by have h : ({ base with index := 0xFF1 } : State).index.toNat = 0xFF1 := rfl; omega)
    (by have h : ({ base with index := 0xFF1 } : State).index.toNat = 0xFF1 := rfl
        have h2 : (14#4 : Reg).toNat = 14 := rfl
        omega)⟩
/-- Both bytes of the font's window. -/
theorem witness_RegistersAreLoaded_window :
    (1#4 : Reg) ≠ 15#4 ∧ ∀ k, k ≤ (1#4 : Reg).toNat →
      readable { onPlatform with index := 0x050 } (({ onPlatform with index := 0x050 } : State).index.toNat + k) := by
  refine ⟨by decide, fun k hk => ?_⟩
  have h2 : (1#4 : Reg).toNat = 1 := rfl
  obtain rfl | rfl : k = 0 ∨ k = 1 := by omega
  · exact ⟨by decide, .inr ⟨_, rfl, by decide, by decide⟩⟩
  · exact ⟨by decide, .inr ⟨_, rfl, by decide, by decide⟩⟩
theorem witness_RegistersAreLoaded_guard :
    (14#4 : Reg) ≠ 15#4 ∧ 0 ≤ (14#4 : Reg).toNat ∧ ({ base with index := 0x1FF } : State).index.toNat + 0 < 0x200 ∧
    ¬ readable { base with index := 0x1FF } (({ base with index := 0x1FF } : State).index.toNat + 0) :=
  ⟨by decide, by decide, by decide, not_readable rfl (by decide)⟩
theorem witness_RegistersAreLoaded_range :
    (14#4 : Reg) ≠ 15#4 ∧ ({ base with index := 0xFF2 } : State).index.toNat + (14#4 : Reg).toNat > 0xFFF := by decide
theorem witness_BlockStoreThenLoadRoundTrips :
    (14#4 : Reg) ≠ 15#4 ∧ base.mem.wf = true ∧ 0x200 ≤ ({ base with index := 0xFF1 } : State).index.toNat ∧
    ({ base with index := 0xFF1 } : State).index.toNat + (14#4 : Reg).toNat ≤ 0xFFF := by decide
/-- A store at the ends of program space: the first byte that fails is the first, or the last. -/
theorem witness_DataFaultReportsLowestAddress_store :
    flagReg ∉ testedRegs (.ldBV 0#4) ∧ dataAccess (.ldBV 0#4) = some (.write, 3) ∧
    (({ base with index := 0x1FF } : State).index.toNat < 0x200 ∧
      ¬ (0x200 ≤ ({ base with index := 0x1FF } : State).index.toNat + 0 ∧
        ({ base with index := 0x1FF } : State).index.toNat + 0 ≤ 0xFFF)) ∧
    (0x200 ≤ ({ base with index := 0xFFE } : State).index.toNat ∧
      0x1000 < ({ base with index := 0xFFE } : State).index.toNat + 3 ∧ 2 < 3 ∧
      (∀ j, j < 2 → 0x200 ≤ ({ base with index := 0xFFE } : State).index.toNat + j ∧
        ({ base with index := 0xFFE } : State).index.toNat + j ≤ 0xFFF) ∧
      ¬ (0x200 ≤ ({ base with index := 0xFFE } : State).index.toNat + 2 ∧
        ({ base with index := 0xFFE } : State).index.toNat + 2 ≤ 0xFFF)) := by decide
theorem witness_DataFaultReportsLowestAddress_sprite :
    flagReg ∉ testedRegs (.drw 0#4 14#4 15#4) ∧ dataAccess (.drw 0#4 14#4 15#4) = some (.read, 15) ∧ 0 < 15 ∧
    base.cfg.font = none ∧ base.index.toNat < 0x200 ∧ 0x200 ≤ ({ base with index := 0xFFFF } : State).index.toNat ∧
    0x1000 < ({ base with index := 0xFFFF } : State).index.toNat + 15 := by decide
/-- On a machine with a font: a read that starts on the window's last byte fails at the byte after it. -/
theorem witness_DataFaultReportsLowestAddress_window :
    dataAccess (.ldVMI 1#4) = some (.read, 2) ∧ 1 < 2 ∧
    (∀ j, j < 1 → accessible { onPlatform with index := 0x051 } .read
      (({ onPlatform with index := 0x051 } : State).index.toNat + j)) ∧
    ¬ accessible { onPlatform with index := 0x051 } .read
      (({ onPlatform with index := 0x051 } : State).index.toNat + 1) := by
  refine ⟨rfl, by decide, fun j hj => ?_, ?_⟩
  · obtain rfl : j = 0 := by omega
    exact ⟨by decide, .inr ⟨_, rfl, by decide, by decide⟩⟩
  · rintro ⟨_, h | ⟨f, hf, _, h⟩⟩
    · exact absurd h (by decide)
    · obtain rfl := Option.some.inj hf
      exact absurd h (by decide)
/-- The same read, run: MEM_GUARD at 0x052. -/
theorem test_ldVMI_window : nextWith (exec (.ldVMI 1#4) { onPlatform with index := 0x051 })
    (fun t => t.fault.cause == .memGuard && t.fault.addr == 0x052) = true := by decide
theorem witness_FontWindowOpensOnlyReads :
    (0#4 : Reg) ≠ 15#4 ∧ ({ onPlatform with index := 0x050 } : State).index.toNat < 0x200 ∧
    onPlatform.loaded = true ∧ onPlatform.fault.cause = .none ∧
    ({ onPlatform with pc := 0x050 } : State).pc.toNat < 0x200 := by decide
/-- The window lies in the guard region, at both its ends. -/
theorem witness_FontWindowOpensOnlyReads_placed :
    base.cfg.font = none ∧ onPlatform.mem.wf = true ∧ ∃ f, onPlatform.cfg.font = some f ∧
      0 < f.bytes.length ∧ f.base + 0 < 0x200 ∧ 1 < f.bytes.length ∧ f.base + 1 < 0x200 :=
  ⟨by decide, by decide, _, rfl, by decide, by decide, by decide, by decide⟩
/-- R230 with a font: memory is 0 after `init()`; the platform then places its bytes, and `init()` clears them. -/
theorem test_placeFont : onPlatform.mem.read 0x050 = 0 ∧ onPlatform.placeFont.mem.read 0x050 = 0xF0 ∧
    onPlatform.placeFont.mem.read 0x051 = 0x90 ∧ onPlatform.placeFont.mem.read 0x052 = 0 ∧
    nextWith (hostOp .init onPlatform.placeFont) (fun t => t.mem.read 0x050 == 0) = true := by decide
/-- A placed font is read through its window. -/
theorem test_ldVMI_placed : nextWith (exec (.ldVMI 1#4) { onPlatform.placeFont with index := 0x050 })
    (fun t => t.fault.cause == .none && t.reg 0#4 == 0xF0 && t.reg 1#4 == 0x90) = true := by decide
theorem witness_DrwXorsTheSprite_program :
    (0#4 : Reg) ≠ 15#4 ∧ (14#4 : Reg) ≠ 15#4 ∧ spriteReadable { base with index := 0xFF1 } 15#4 :=
  ⟨by decide, by decide, fun k hk => readable_program
    (by have h : ({ base with index := 0xFF1 } : State).index.toNat = 0xFF1 := rfl; omega)
    (by have h : ({ base with index := 0xFF1 } : State).index.toNat = 0xFF1 := rfl
        have h2 : (15#4 : Nibble).toNat = 15 := rfl
        omega)⟩
/-- A sprite of no rows at any index. -/
theorem witness_DrwXorsTheSprite_noRows : spriteReadable base 0#4 := fun k hk => absurd hk (Nat.not_lt_zero k)
/-- A lit cell under a set bit, for the flag's clause. -/
theorem witness_DrwXorsTheSprite_collision :
    ({ ready2 0xFF00#16 0 0 with index := 0x200, fb := Framebuffer.blank.set 0 0 true } : State).fb.get 0 0 = true ∧
    spriteOn { ready2 0xFF00#16 0 0 with index := 0x200, fb := Framebuffer.blank.set 0 0 true } 1#4 2#4 1#4 0 0 = true :=
  by decide
/-- The sprite's last column is 8 right of nothing: the cell at column 8 stays. -/
theorem witness_DrwXorsTheSprite_edge :
    spriteOn { ready2 0xFF00#16 0 0 with index := 0x200 } 1#4 2#4 1#4 0 7 = true ∧
    spriteOn { ready2 0xFF00#16 0 0 with index := 0x200 } 1#4 2#4 1#4 0 8 = false ∧
    spriteOn { ready2 0xFF00#16 0 0 with index := 0x200 } 1#4 2#4 1#4 1 0 = false := by decide
theorem witness_DrwXorsTheSprite_guard :
    (0#4 : Reg) ≠ 15#4 ∧ (0#4 : Reg) ≠ 15#4 ∧ 0 < (1#4 : Nibble).toNat ∧ base.index.toNat + 0 < 0x200 ∧
    ¬ readable base (base.index.toNat + 0) :=
  ⟨by decide, by decide, by decide, by decide, not_readable rfl (by decide)⟩
theorem witness_DrwXorsTheSprite_range :
    (0#4 : Reg) ≠ 15#4 ∧ 0 < (15#4 : Nibble).toNat ∧
    ({ base with index := 0xFF2 } : State).index.toNat + (15#4 : Nibble).toNat - 1 > 0xFFF := by decide
/-- A set bit on a cell that is off, for the second draw's flag. -/
theorem witness_DrawingTwiceRestores :
    (1#4 : Reg) ≠ 15#4 ∧ (2#4 : Reg) ≠ 15#4 ∧ spriteReadable { ready2 0xFF00#16 0 0 with index := 0x200 } 1#4 ∧
    ({ ready2 0xFF00#16 0 0 with index := 0x200 } : State).fb.get 0 0 = false ∧
    spriteOn { ready2 0xFF00#16 0 0 with index := 0x200 } 1#4 2#4 1#4 0 0 = true :=
  ⟨by decide, by decide, fun k hk => readable_program
    (by have h : ({ ready2 0xFF00#16 0 0 with index := 0x200 } : State).index.toNat = 0x200 := rfl; omega)
    (by have h : ({ ready2 0xFF00#16 0 0 with index := 0x200 } : State).index.toNat = 0x200 := rfl
        have h2 : (1#4 : Nibble).toNat = 1 := rfl
        omega), by decide, by decide⟩
theorem witness_RenderAckAloneClearsDirty :
    nextWith (hostOp .renderAck { halted with dirty := true }) (fun t => t.dirty == false) = true ∧
    nextWith (hostOp .renderAck { base with dirty := true }) (fun t => t.fault.cause == .none && t.dirty == false) =
      true ∧
    nextWith (hostOp .init { halted with dirty := true }) (fun t => t.fault.cause == .none && t.dirty == false) =
      true := by decide
theorem witness_KeySkipsTestTheNamedKey :
    (0#4 : Reg) ≠ 15#4 ∧ (14#4 : Reg) ≠ 15#4 ∧ base.cfg.keys = .stub := by decide
theorem witness_KeyWaitFollowsItsMode :
    (14#4 : Reg) ≠ 15#4 ∧ base.cfg.keywait = .stubZero ∧ onPlatform.cfg.keywait = .pollRetry ∧
    (0x8000#16).getLsbD 15 = true ∧ (∀ j, j < 15 → (0x8000#16).getLsbD j = false) ∧
    (0x0001#16).getLsbD 0 = true ∧ (∀ j, j < 0 → (0x0001#16).getLsbD j = false) := by decide
theorem witness_TimerMoves : (0#4 : Reg) ≠ 15#4 ∧ (14#4 : Reg) ≠ 15#4 := by decide
theorem witness_TimersMoveOnlyByTickOrLoad_step :
    HostOp.step ≠ .init ∧ HostOp.step ≠ .tick ∧
    nextWith (hostOp .step (ready2 0xF115#16 9 0)) (fun t => t.fault.cause == .none && t.dt == 9) = true := by decide
theorem witness_TimersMoveOnlyByTickOrLoad_exec :
    (14#4 : Reg) ≠ 15#4 ∧ nextWith (exec (.ldVDT 14#4) { base with dt := 9 })
      (fun t => t.fault.cause == .none && t.reg 14#4 == 9) = true := by decide
theorem witness_FlagIsWrittenBySixInstructions :
    ∃ t, exec (.sub 1#4 2#4) (ready2 0 2 1) = .next t ∧ (t.fault.cause == .none && t.reg flagReg == 1) = true :=
  nextWith_exists (by decide)
theorem witness_IndexIsWrittenByFourInstructions :
    ∃ t, exec (.ldI 0xFFF#12) base = .next t ∧ (t.fault.cause == .none && t.index == 0xFFF) = true :=
  nextWith_exists (by decide)
theorem witness_StackIsReachedByCallAndReturn :
    ∃ t, exec (.call 0#12) { base with sp := 14 } = .next t ∧ (t.fault.cause == .none && t.sp.val == 15) = true :=
  nextWith_exists (by decide)
theorem witness_FramebufferIsWrittenByClsAndDrw :
    ∃ t, exec (.drw 0#4 0#4 0#4) { base with dirty := true } = .next t ∧
      (t.fault.cause == .none && t.dirty) = true := nextWith_exists (by decide)
theorem witness_MemoryIsWrittenByTwoInstructions :
    base.mem.wf = true ∧ ∃ t, exec (.ldMIV 0#4) { base.setReg 0#4 5 with index := 0xFFF } = .next t ∧
      (t.fault.cause == .none && t.mem.read 0xFFF == 5) = true := ⟨by decide, nextWith_exists (by decide)⟩
theorem witness_UnnamedRegistersAreUnchanged :
    ∃ t, exec (.ldVMI 14#4) { base with index := 0x200 } = .next t ∧
      (t.fault.cause == .none && t.reg 15#4 == base.reg 15#4) = true := nextWith_exists (by decide)
theorem witness_FlagRegisterIsNeverRead :
    ∃ t, step (ready2 0x8124#16 255 1) = .next t ∧ (t.fault.cause == .none && t.reg flagReg == 1) = true :=
  nextWith_exists (by decide)
/-- The bytes of `JP 0x200`, to be stored at 0x202 by the instruction at 0x200 (im25). -/
def selfWriting : State := { ((ready 0xF155#16).setReg 0#4 0x12).setReg 1#4 0x00 with index := 0x202 }
theorem witness_StoredCodeIsFetched :
    (1#4 : Reg) ≠ 15#4 ∧ 1 ≤ (1#4 : Reg).toNat ∧ selfWriting.loaded = true ∧ selfWriting.fault.cause = .none ∧
    selfWriting.mem.wf = true ∧ 0x200 ≤ selfWriting.index.toNat ∧ selfWriting.index.toNat + (1#4 : Reg).toNat ≤ 0xFFF ∧
    selfWriting.pc + 2 = selfWriting.index ∧
    decodeWord (selfWriting.reg 0#4 ++ selfWriting.reg 1#4) = .ok (.jp 0x200#12) ∧
    nextWith (exec (.ldMIV 1#4) selfWriting) (fun t => t.mem.read 0x202 == 0x12) = true := by decide
theorem witness_OnlyInitClearsAFault :
    HostOp.tick ≠ .init ∧ halted.fault.cause ≠ .none ∧
    nextWith (hostOp .tick { halted with dt := 2 }) (fun t => t.dt == 1 && t.fault.cause == .stackOverflow) = true := by
  decide
/-- From a halted state a run of ticks answers, and its end is the record; with `init` in it the run is successful. -/
theorem witness_OnlyInitClearsAFault_run :
    halted.fault.cause ≠ .none ∧ HostOp.init ∉ [HostOp.tick, HostOp.renderAck] ∧
    nextWith (hostRun [.tick, .renderAck] halted) (fun t => t.fault.cause == .stackOverflow) = true ∧
    runEnd [.tick, .renderAck] halted = .faulted halted.fault ∧ SuccessfulRun [.tick, .init] halted State.reset :=
  ⟨by decide, by decide, by decide, by decide, by unfold SuccessfulRun; decide⟩
/-- A sixteenth call: its step returns the fault, the fifteenth returned ok. -/
theorem test_stepResult : got State.stepResult { ready 0x2456#16 with sp := 15 } =
      some (.fault { cause := .stackOverflow, pc := 0x200, ir := 0x2456, addr := 0 }) ∧
    got State.stepResult { ready 0x2456#16 with sp := 14 } = some .ok := by decide
theorem witness_LoadCopiesTheRom :
    State.reset.loaded = false ∧ State.reset.mem.wf = true ∧ ([] : List Byte).length ≤ 3584 ∧
    (List.replicate 3584 0xAB#8).length ≤ 3584 :=
  ⟨rfl, by decide, by decide, by rw [List.length_replicate]⟩
theorem witness_TooLargeRomChangesNothing :
    State.reset.loaded = false ∧ 3584 < (List.replicate 3585 0xAB#8).length :=
  ⟨rfl, by rw [List.length_replicate]; decide⟩
/-- The reset state with a ROM loaded has the invariant, and its next step answers. -/
theorem base_inv : base.Inv where
  running := fun _ => {
    memory := by decide
    guardRegion := .inl fun a ha => by
      have hr : base.mem = [] := by decide
      rw [hr]; rfl
    flag := by decide
    pcBound := by decide
    slotBound := by decide
    slotZero := by decide
    romLen := by decide
    unloaded := fun h => absurd h (by decide) }
  faultClear := fun _ => by decide
  faultPc := by decide
  faultAddr := by decide
  faultRange := by decide
  faultGuard := by decide
  faultNoAddr := by decide
theorem witness_StepKeepsTheInvariant : base.Inv ∧ ∃ t, step base = .next t ∧ (t.pc == 0x202) = true :=
  ⟨base_inv, nextWith_exists (by decide)⟩
theorem witness_EveryReachableStateHasTheInvariant :
    Reachable State.reset ∧ base.Inv ∧ ∃ t, hostOp .tick base = .next t ∧ t.loaded = true :=
  ⟨.init _, base_inv, nextWith_exists (by decide)⟩
/-- A state with a placed font is reachable. -/
theorem witness_EveryReachableStateHasTheInvariant_font :
    Reachable (State.resetFor platform).placeFont ∧ ((State.resetFor platform).placeFont.mem.read 0x051 == 0x90) = true :=
  ⟨.font (.init _) rfl, by decide⟩

end Sys2Proof.Tests
end

/-! SUPPORT. One instruction, said once: its own rule on the state with `pc` advanced, the effect a completed
instruction can have, and the trap it can raise instead. -/

namespace Sys2Proof.Machine

/-! ## The rule of an instruction, apart from the checks and the commit around it -/

/-- What an instruction does to the state `p` with `pc` advanced, or the trap it raises there. `exec_eq_perform` ties it
to `exec`. -/
def ruleOf : Instr → State → Except Trap State
  | .cls, p => .ok { p with fb := Framebuffer.blank, dirty := true }
  | .ret, p =>
    if p.sp.val = 0 then .error { cause := .stackUnderflow, addr := 0 }
    else .ok { p with pc := p.stack[p.sp.val]'p.sp.isLt, sp := p.sp - 1 }
  | .sys _, p => .ok p
  | .jp nnn, p => .ok { p with pc := addrToWord nnn }
  | .call nnn, p =>
    if h : p.sp.val + 1 > 15 then .error { cause := .stackOverflow, addr := 0 }
    else .ok { p with
      stack := p.stack.set (p.sp.val + 1) p.pc (by omega)
      sp := ⟨p.sp.val + 1, by omega⟩
      pc := addrToWord nnn }
  | .seVK x kk, p => .ok (p.skipIf (p.reg x == kk))
  | .sneVK x kk, p => .ok (p.skipIf (p.reg x != kk))
  | .seVV x y _, p => .ok (p.skipIf (p.reg x == p.reg y))
  | .ldVK x kk, p => .ok (p.setReg x kk)
  | .addVK x kk, p => .ok (p.setReg x (p.reg x + kk))
  | .ldVV x y, p => .ok (p.setReg x (p.reg y))
  | .or x y, p => .ok (p.setReg x (p.reg x ||| p.reg y))
  | .and x y, p => .ok (p.setReg x (p.reg x &&& p.reg y))
  | .xor x y, p => .ok (p.setReg x (p.reg x ^^^ p.reg y))
  | .addVV x y, p => .ok (p.setRegFlag x (p.reg x + p.reg y) (carryFlag (p.reg x) (p.reg y)))
  | .sub x y, p => .ok (p.setRegFlag x (p.reg x - p.reg y) (greaterFlag (p.reg x) (p.reg y)))
  | .shr x _, p => .ok (p.setRegFlag x (p.reg x >>> 1) (lowBitFlag (p.reg x)))
  | .subn x y, p => .ok (p.setRegFlag x (p.reg y - p.reg x) (greaterFlag (p.reg y) (p.reg x)))
  | .shl x _, p => .ok (p.setRegFlag x (p.reg x <<< 1) (highBitFlag (p.reg x)))
  | .sneVV x y _, p => .ok (p.skipIf (p.reg x != p.reg y))
  | .ldI nnn, p => .ok { p with index := addrToWord nnn }
  | .jpV0 nnn, p => .ok { p with pc := addrToWord nnn + byteToWord (p.reg 0) }
  | .rnd x kk, p => .ok (p.drawn.setReg x (Config.randomByte p.rndDraws &&& kk))
  | .drw x y n, p => withAccess .read n.toNat p fun q =>
    { q.setReg flagReg (flagByte (q.drawing x y n).erased) with
      fb := (q.drawing x y n).fb
      index := q.index + n.setWidth 16
      dirty := true }
  | .skp x, p => .ok (p.sampled.skipIf (pressed p.keysNow (p.reg x)))
  | .sknp x, p => .ok (p.sampled.skipIf (!pressed p.keysNow (p.reg x)))
  | .ldVDT x, p => .ok (p.setReg x p.dt)
  | .ldVKey x, p =>
    match p.cfg.keywait with
    | .stubZero => .ok (p.setReg x 0)
    | .pollRetry => .ok (pollRetry p.keysNow x p)
  | .ldDTV x, p => .ok { p with dt := p.reg x }
  | .ldSTV x, p => .ok { p with st := p.reg x }
  | .addIV x, p => .ok { p with index := p.index + byteToWord (p.reg x) }
  | .ldFV x, p =>
    match p.cfg.font with
    | none => .error { cause := .noFont, addr := 0 }
    | some f => .ok { p with index := f.glyphAddr[(p.reg x).toNat]'(p.reg x).isLt }
  | .ldBV x, p => withAccess .write 3 p fun q =>
    { q with mem := q.mem.writeBytes q.index.toNat (decimalDigits (q.reg x)) }
  | .ldMIV x, p => withAccess .write (x.toNat + 1) p fun q =>
    { q with mem := q.mem.writeBytes q.index.toNat (q.regsFrom 0 (x.toNat + 1)) }
  | .ldVMI x, p => withAccess .read (x.toNat + 1) p fun q =>
    q.setRegsFrom 0 (q.mem.readBytes q.index.toNat (x.toNat + 1))

/-- The model's meaning of an instruction is its rule, run by `perform`. -/
theorem exec_eq_perform (i : Instr) (s : State) : exec i s = perform i s (ruleOf i) := by
  cases i <;> rfl

/-- Everything `exec` can do. -/
theorem exec_cases {i : Instr} {s t : State} (h : exec i s = .next t) :
    (flagReg ∈ testedRegs i ∧ t = s.raise regIndexTrap (encode i)) ∨
    (flagReg ∉ testedRegs i ∧ ruleOf i s.advance = .ok t) ∨
    (flagReg ∉ testedRegs i ∧ ∃ e, ruleOf i s.advance = .error e ∧ t = s.raise e (encode i)) :=
  perform_cases (exec_eq_perform i s ▸ h)

/-- Register fields below 15 and a rule that completes: the instruction completes. -/
theorem exec_ok {i : Instr} {s t : State} (hi : flagReg ∉ testedRegs i) (hr : ruleOf i s.advance = .ok t) :
    exec i s = .next t :=
  exec_eq_perform i s ▸ perform_ok hi hr

/-- Register fields below 15 and a rule that traps: the fault is taken. -/
theorem exec_trap {i : Instr} {s : State} {e : Trap} (hi : flagReg ∉ testedRegs i)
    (hr : ruleOf i s.advance = .error e) : exec i s = .next (s.raise e (encode i)) :=
  exec_eq_perform i s ▸ perform_trap hi hr

/-! ## The traps (spec/60_exceptions.md R201) -/

/-- A trap names a cause, and its address is one that the cause records. -/
structure Trap.Coherent (e : Trap) : Prop where
  cause : e.cause ≠ .none
  addr : e.addr ≤ 0x1000D
  range : e.cause = .memRange → 0x1000 ≤ e.addr
  guard : e.cause = .memGuard → e.addr < 0x200
  noAddr : e.cause ≠ .memRange → e.cause ≠ .memGuard → e.addr = 0

theorem regIndexTrap_coherent : regIndexTrap.Coherent := by constructor <;> decide

theorem illegalTrap_coherent : illegalTrap.Coherent := by constructor <;> decide

/-- The trap of a failing access, whose last address is at most `I + 14`. -/
theorem accessFault_coherent {cfg : Config} {kind : Access} {ea n : Nat} {e : Trap}
    (h : accessFault cfg kind ea n = some e) (hn : ea + n ≤ 0x1000E) : e.Coherent := by
  obtain ⟨k, hk, haddr, hfault, -⟩ := accessFault_some n h
  obtain ⟨hc, hr⟩ | ⟨hc, hg⟩ := addressFault_some hfault
  · constructor <;> simp [hc, haddr] <;> omega
  · constructor <;> simp [hc, haddr] <;> omega

theorem withAccess_error_coherent {kind : Access} {n : Nat} {p : State} {rule : State → State} {e : Trap}
    (h : withAccess kind n p rule = .error e) (hn : n ≤ 15) : e.Coherent := by
  obtain ⟨-, ha⟩ | ⟨e', he, ha⟩ := withAccess_cases (kind := kind) (n := n) (p := p) (rule := rule)
  · simp [ha] at h
  · obtain rfl : e' = e := by simpa [ha] using h
    have := p.index.isLt
    exact accessFault_coherent he (by omega)

/-- A register field that passed the check names `V[0]` to `V[14]`. -/
theorem toNat_le_of_not_flagReg {x : Reg} (h : flagReg ≠ x) : x.toNat ≤ 14 := by
  have := x.isLt
  have : x.toNat ≠ 15 := fun hx => h (BitVec.eq_of_toNat_eq hx.symm)
  omega

/-- Every trap of an instruction's rule is coherent. -/
theorem ruleOf_error_coherent {i : Instr} {p : State} {e : Trap} (hi : flagReg ∉ testedRegs i)
    (h : ruleOf i p = .error e) : e.Coherent := by
  cases i with
  | ret =>
    simp only [ruleOf] at h
    split at h <;> cases h
    constructor <;> decide
  | call nnn =>
    simp only [ruleOf] at h
    split at h <;> cases h
    constructor <;> decide
  | ldFV x =>
    simp only [ruleOf] at h
    split at h <;> cases h
    constructor <;> decide
  | ldVKey x =>
    simp only [ruleOf] at h
    split at h <;> cases h
  | drw x y n =>
    simp only [ruleOf] at h
    exact withAccess_error_coherent h (by have := n.isLt; omega)
  | ldBV x =>
    simp only [ruleOf] at h
    exact withAccess_error_coherent h (by decide)
  | ldMIV x | ldVMI x =>
    simp only [ruleOf] at h
    have := toNat_le_of_not_flagReg (List.ne_of_not_mem_cons hi)
    exact withAccess_error_coherent h (by omega)
  | _ => cases h

/-- An instruction that leaves no fault has run its rule to the end. -/
theorem exec_completes {i : Instr} {s t : State} (h : exec i s = .next t) (hf : t.fault.cause = .none) :
    flagReg ∉ testedRegs i ∧ ruleOf i s.advance = .ok t := by
  obtain ⟨-, rfl⟩ | hok | ⟨hi, e, he, rfl⟩ := exec_cases h
  · exact absurd hf regIndexTrap_coherent.cause
  · exact hok
  · exact absurd hf (ruleOf_error_coherent hi he).cause

/-! ## The effect of a completed instruction -/

/-- The six instructions that write the flag register (spec/10_state.md R12). -/
def writesFlag : Instr → Prop
  | .addVV _ _ | .sub _ _ | .shr _ _ | .subn _ _ | .shl _ _ | .drw _ _ _ => True
  | _ => False

/-- The four instructions that write the index register; `LD F` needs a font (spec/10_state.md R17). -/
def writesIndex (cfg : Config) : Instr → Prop
  | .ldI _ | .addIV _ | .drw _ _ _ => True
  | .ldFV _ => cfg.font.isSome
  | _ => False

/-- `Effect i p t`: the instruction `i`, completed on the state `p` with `pc` advanced, leaves `t`. One constructor for
each set of fields that some instruction writes; what a constructor does not name is unchanged. -/
inductive Effect : Instr → State → State → Prop
  /-- A no-op, a jump, a skip, or a key wait that retries. -/
  | goto {i : Instr} {p : State} {w : Word} (k : Nat)
      (hw : w = p.pc ∨ w = p.pc + 2 ∨ w = p.pc - 2 ∨ w.toNat ≤ 0x10FE) :
      Effect i p { p with pc := w, keySamples := k }
  | setReg {i : Instr} {p : State} {x : Reg} (hx : flagReg ≠ x) (b : Byte) (k d : Nat) :
      Effect i p { p.setReg x b with keySamples := k, rndDraws := d }
  | setRegFlag {i : Instr} {p : State} {x : Reg} {c : Byte} (hi : writesFlag i) (hx : flagReg ≠ x) (b : Byte)
      (hc : c.toNat ≤ 1) : Effect i p (p.setRegFlag x b c)
  | setRegs {i : Instr} {p : State} {bs : List Byte} (hbs : bs.length ≤ 15) : Effect i p (p.setRegsFrom 0 bs)
  | setIndex {i : Instr} {p : State} (hi : writesIndex p.cfg i) (w : Word) : Effect i p { p with index := w }
  | store {i : Instr} {p : State} {bs : List Byte} (hlo : 0x200 ≤ p.index.toNat)
      (hhi : p.index.toNat + bs.length ≤ 0x1000) :
      Effect i p { p with mem := p.mem.writeBytes p.index.toNat bs }
  | ret {p : State} : Effect .ret p { p with pc := p.stack[p.sp.val], sp := p.sp - 1 }
  | call {p : State} (a : Addr12) (h : p.sp.val + 1 < 16) :
      Effect (.call a) p
        { p with stack := p.stack.set (p.sp.val + 1) p.pc h, sp := ⟨p.sp.val + 1, h⟩, pc := addrToWord a }
  | cls {p : State} : Effect .cls p { p with fb := Framebuffer.blank, dirty := true }
  | drw {p : State} (x y : Reg) (n : Nibble) {c : Byte} (hc : c.toNat ≤ 1) (f : Framebuffer) (w : Word) :
      Effect (.drw x y n) p { p.setReg flagReg c with fb := f, index := w, dirty := true }
  | setDt {p : State} (x : Reg) : Effect (.ldDTV x) p { p with dt := p.reg x }
  | setSt {p : State} (x : Reg) : Effect (.ldSTV x) p { p with st := p.reg x }

theorem flagByte_toNat_le_one (c : Bool) : (flagByte c).toNat ≤ 1 := by cases c <;> decide

theorem addrToWord_toNat (a : Addr12) : (addrToWord a).toNat = a.toNat := by
  have := a.isLt
  simp [addrToWord]
  omega

/-- The sum of `JP V0` does not wrap. -/
theorem addrToWord_add_byteToWord_le (a : Addr12) (b : Byte) : (addrToWord a + byteToWord b).toNat ≤ 0x10FE := by
  have := a.isLt
  have := b.isLt
  simp [addrToWord, byteToWord]
  omega

/-- A register is written and no free input is drawn. -/
theorem Effect.setRegAlone {i : Instr} {p : State} {x : Reg} (hx : flagReg ≠ x) (b : Byte) :
    Effect i p (p.setReg x b) :=
  .setReg hx b p.keySamples p.rndDraws

theorem Effect.skipIf {i : Instr} (p : State) (c : Bool) : Effect i p (p.skipIf c) := by
  cases c
  · exact .goto p.keySamples (.inl rfl)
  · exact .goto p.keySamples (.inr (.inl rfl))

theorem Effect.skipIf_sampled {i : Instr} (p : State) (c : Bool) : Effect i p (p.sampled.skipIf c) := by
  cases c
  · exact .goto (p.keySamples + 1) (.inl rfl)
  · exact .goto (p.keySamples + 1) (.inr (.inl rfl))

theorem Effect.pollRetry {i : Instr} {x : Reg} (hx : flagReg ≠ x) (keys : Word) (p : State) :
    Effect i p (pollRetry keys x p) := by
  unfold Machine.pollRetry
  split
  · exact .goto (p.keySamples + 1) (.inr (.inr (.inl rfl)))
  · exact .setReg hx _ (p.keySamples + 1) p.rndDraws

/-- What a data access that passes leaves. -/
theorem withAccess_eq_ok {kind : Access} {n : Nat} {p t : State} {rule : State → State}
    (h : withAccess kind n p rule = .ok t) : p.dataFault kind n = none ∧ t = rule p := by
  obtain ⟨hn, ha⟩ | ⟨e, -, ha⟩ := withAccess_cases (kind := kind) (n := n) (p := p) (rule := rule)
  · exact ⟨hn, by simpa [ha] using h.symm⟩
  · simp [ha] at h

/-- A store that passes the checks lies in program space. -/
theorem Effect.of_store {i : Instr} {p t : State} {f : State → List Byte} {n : Nat} (hlen : (f p).length = n)
    (hn : 0 < n)
    (h : withAccess .write n p (fun q => { q with mem := q.mem.writeBytes q.index.toNat (f q) }) = .ok t) :
    Effect i p t := by
  obtain ⟨hok, rfl⟩ := withAccess_eq_ok h
  obtain ⟨hlo, hhi⟩ := accessFault_none_program (by decide) hn hok
  exact .store hlo (by rw [hlen]; exact hhi)

/-- A completed instruction has one of the effects. -/
theorem ruleOf_effect {i : Instr} {p t : State} (hi : flagReg ∉ testedRegs i) (h : ruleOf i p = .ok t) :
    Effect i p t := by
  cases i with
  | cls => cases h; exact .cls
  | ret =>
    simp only [ruleOf] at h
    split at h <;> cases h
    exact .ret
  | call nnn =>
    simp only [ruleOf] at h
    split at h <;> cases h
    exact .call nnn (by omega)
  | sys nnn => cases h; exact .goto p.keySamples (.inl rfl)
  | jp nnn => cases h; exact .goto p.keySamples (by rw [addrToWord_toNat]; omega)
  | jpV0 nnn => cases h; exact .goto p.keySamples (.inr (.inr (.inr (addrToWord_add_byteToWord_le _ _))))
  | seVK x kk | sneVK x kk => cases h; exact .skipIf p _
  | seVV x y n | sneVV x y n => cases h; exact .skipIf p _
  | skp x | sknp x => cases h; exact .skipIf_sampled p _
  | ldVKey x =>
    simp only [ruleOf] at h
    split at h <;> cases h
    · exact .setRegAlone (List.ne_of_not_mem_cons hi) 0
    · exact .pollRetry (List.ne_of_not_mem_cons hi) _ p
  | ldVK x kk | addVK x kk => cases h; exact .setRegAlone (List.ne_of_not_mem_cons hi) _
  | ldVV x y | or x y | and x y | xor x y => cases h; exact .setRegAlone (List.ne_of_not_mem_cons hi) _
  | ldVDT x => cases h; exact .setRegAlone (List.ne_of_not_mem_cons hi) _
  | rnd x kk => cases h; exact .setReg (List.ne_of_not_mem_cons hi) _ p.keySamples (p.rndDraws + 1)
  | addVV x y | sub x y | subn x y | shr x y | shl x y =>
    cases h
    exact .setRegFlag (by exact trivial) (List.ne_of_not_mem_cons hi) _ (flagByte_toNat_le_one _)
  | ldI nnn => cases h; exact .setIndex (i := .ldI nnn) trivial _
  | addIV x => cases h; exact .setIndex (i := .addIV x) trivial _
  | ldFV x =>
    simp only [ruleOf] at h
    split at h <;> cases h
    rename_i f hf
    exact .setIndex (i := .ldFV x) (Option.isSome_of_eq_some hf) _
  | drw x y n =>
    simp only [ruleOf] at h
    obtain ⟨-, rfl⟩ := withAccess_eq_ok h
    exact .drw x y n (flagByte_toNat_le_one _) _ _
  | ldBV x =>
    simp only [ruleOf] at h
    exact .of_store (f := fun q => decimalDigits (q.reg x)) (n := 3) rfl (by decide) h
  | ldMIV x =>
    simp only [ruleOf] at h
    exact .of_store (f := fun q => q.regsFrom 0 (x.toNat + 1)) (State.regsFrom_length _ _ _) (by omega) h
  | ldVMI x =>
    simp only [ruleOf] at h
    have := toNat_le_of_not_flagReg (List.ne_of_not_mem_cons hi)
    obtain ⟨-, rfl⟩ := withAccess_eq_ok h
    exact .setRegs (by simp only [Memory.readBytes_length]; omega)
  | ldDTV x => cases h; exact .setDt x
  | ldSTV x => cases h; exact .setSt x

/-- What an instruction that leaves no fault has done to the state with `pc` advanced. -/
theorem exec_effect {i : Instr} {s t : State} (h : exec i s = .next t) (hf : t.fault.cause = .none) :
    Effect i s.advance t :=
  have ⟨hi, ht⟩ := exec_completes h hf
  ruleOf_effect hi ht

/-! ## A step and a load, said once -/

/-- Everything `step` can do. -/
theorem step_cases {s t : State} (h : step s = .next t) :
    s.stuck = none ∧
      ((∃ e, s.fetchFault = some e ∧ t = s.raise e 0) ∨
       (∃ err, s.fetchFault = none ∧ decodeWord s.fetchWord = .error err ∧ t = s.raise illegalTrap s.fetchWord) ∨
       (∃ i, s.fetchFault = none ∧ decodeWord s.fetchWord = .ok i ∧ exec i s = .next t)) := by
  unfold step at h
  split at h
  · cases h
  · rename_i hs
    refine ⟨hs, ?_⟩
    split at h
    · rename_i e he
      exact .inl ⟨e, he, by simpa using h.symm⟩
    · rename_i hn
      split at h
      · rename_i err hd
        exact .inr (.inl ⟨err, hn, hd, by simpa using h.symm⟩)
      · rename_i i hd
        exact .inr (.inr ⟨i, hn, hd, h⟩)

theorem step_fetchFault {s : State} {e : Trap} (hs : s.stuck = none) (he : s.fetchFault = some e) :
    step s = .next (s.raise e 0) := by
  simp only [step, hs, he]

theorem step_illegal {s : State} {err : DecodeError} (hs : s.stuck = none) (hn : s.fetchFault = none)
    (hd : decodeWord s.fetchWord = .error err) : step s = .next (s.raise illegalTrap s.fetchWord) := by
  simp only [step, hs, hn, hd]

theorem step_decoded {s : State} {i : Instr} (hs : s.stuck = none) (hn : s.fetchFault = none)
    (hd : decodeWord s.fetchWord = .ok i) : step s = exec i s := by
  simp only [step, hs, hn, hd]

theorem fetchFault_coherent {s : State} {e : Trap} (h : s.fetchFault = some e) : e.Coherent :=
  accessFault_coherent h (by have := s.pc.isLt; omega)

/-- A step that leaves no fault has executed the instruction at `pc`. -/
theorem step_completes {s t : State} (h : step s = .next t) (hf : t.fault.cause = .none) :
    ∃ i, decodeWord s.fetchWord = .ok i ∧ exec i s = .next t := by
  obtain ⟨-, ⟨e, he, rfl⟩ | ⟨err, -, -, rfl⟩ | ⟨i, -, hd, hexec⟩⟩ := step_cases h
  · exact absurd hf (fetchFault_coherent he).cause
  · exact absurd hf illegalTrap_coherent.cause
  · exact ⟨i, hd, hexec⟩

/-- `load` is enabled on an engine that is not loaded (R29). -/
theorem hostOp_load {bytes : List Byte} {s t : State} (h : hostOp (.load bytes) s = .next t) :
    s.loaded = false ∧ t = s.load bytes := by
  simp only [hostOp] at h
  split at h
  · cases h
  · rename_i hl
    exact ⟨by simpa using hl, by simpa using h.symm⟩

/-- `load` writes memory, the loaded length and `loaded` alone. -/
theorem State.load_eq (s : State) (bytes : List Byte) :
    s.load bytes =
      { s with mem := (s.load bytes).mem, romLen := (s.load bytes).romLen, loaded := (s.load bytes).loaded } := by
  unfold State.load
  split <;> rfl

end Sys2Proof.Machine

/-! ## What each effect writes: one lemma per field (spec/10_state.md) -/

namespace Sys2Proof.Machine

section EffectFields

variable {i : Instr} {p t : State} (h : Effect i p t)

include h

theorem Effect.fault : t.fault = p.fault := by cases h <;> simp

theorem Effect.cfg : t.cfg = p.cfg := by cases h <;> simp

theorem Effect.loaded : t.loaded = p.loaded := by cases h <;> simp

theorem Effect.romLen : t.romLen = p.romLen := by cases h <;> simp

/-- Only two instructions write a timer. -/
theorem Effect.dt : t.dt = p.dt ∨ ∃ x, i = .ldDTV x ∧ t.dt = p.reg x := by
  cases h with
  | setDt x => exact .inr ⟨x, rfl, rfl⟩
  | _ => left; simp

theorem Effect.st : t.st = p.st ∨ ∃ x, i = .ldSTV x ∧ t.st = p.reg x := by
  cases h with
  | setSt x => exact .inr ⟨x, rfl, rfl⟩
  | _ => left; simp

theorem Effect.index : t.index = p.index ∨ writesIndex p.cfg i := by
  cases h with
  | setIndex hi w => exact .inr hi
  | drw x y n hc f w => exact .inr trivial
  | _ => left; simp

theorem Effect.flag :
    t.reg flagReg = p.reg flagReg ∨ (t.reg flagReg).toNat ≤ 1 ∧ writesFlag i := by
  cases h with
  | setReg hx b k d => exact .inl (State.reg_setReg_other p hx.symm b)
  | setRegFlag hi hx b hc =>
    refine .inr ⟨?_, hi⟩
    rw [State.setRegFlag, State.reg_setReg_other _ hx.symm, State.reg_setReg_same]
    exact hc
  | setRegs hbs =>
    left
    rw [State.reg_setRegsFrom _ _ _ _ (by omega), dif_neg (by simp; omega)]
  | drw x y n hc f w =>
    refine .inr ⟨?_, trivial⟩
    exact (State.reg_setReg_same p flagReg _).symm ▸ hc
  | _ => exact .inl rfl

theorem Effect.stack :
    t.stack = p.stack ∨
      ∃ a, i = .call a ∧ ∃ hsp : p.sp.val + 1 < 16, t.stack = p.stack.set (p.sp.val + 1) p.pc hsp := by
  cases h with
  | call a hsp => exact .inr ⟨a, rfl, hsp, rfl⟩
  | _ => left; simp

theorem Effect.sp : t.sp = p.sp ∨ i = .ret ∨ ∃ a, i = .call a := by
  cases h with
  | ret => exact .inr (.inl rfl)
  | call a hsp => exact .inr (.inr ⟨a, rfl⟩)
  | _ => left; simp

theorem Effect.display :
    t.fb = p.fb ∧ t.dirty = p.dirty ∨ t.dirty = true ∧ (i = .cls ∨ ∃ x y n, i = .drw x y n) := by
  cases h with
  | cls => exact .inr ⟨rfl, .inl rfl⟩
  | drw x y n hc f w => exact .inr ⟨rfl, .inr ⟨x, y, n, rfl⟩⟩
  | _ => left; simp

/-- Memory is written in program space alone (spec/20_memory.md R47). -/
theorem Effect.mem :
    t.mem = p.mem ∨ ∃ bs : List Byte, 0x200 ≤ p.index.toNat ∧ p.index.toNat + bs.length ≤ 0x1000 ∧
      t.mem = p.mem.writeBytes p.index.toNat bs := by
  cases h with
  | store hlo hhi => exact .inr ⟨_, hlo, hhi, rfl⟩
  | _ => left; simp

theorem Effect.pc :
    (t.pc = p.pc ∨ t.pc = p.pc + 2 ∨ t.pc = p.pc - 2 ∨ t.pc.toNat ≤ 0x10FE) ∨ t.pc = p.stack[p.sp.val] := by
  cases h with
  | goto k hw => exact .inl hw
  | ret => exact .inr rfl
  | call a hsp => exact .inl (.inr (.inr (.inr (by rw [addrToWord_toNat]; omega))))
  | _ => left; left; simp

/-- Every slot but the one above the stack pointer stays. -/
theorem Effect.stack_other (k : Nat) (hk : k < 16) (hne : k ≠ p.sp.val + 1) : t.stack[k] = p.stack[k] := by
  obtain hs | ⟨-, -, hsp, hs⟩ := h.stack
  · rw [hs]
  · rw [hs, Vector.getElem_set_ne _ _ (Ne.symm hne)]

end EffectFields

theorem writesFlag_cases {i : Instr} (h : writesFlag i) :
    (∃ x y, i = .addVV x y) ∨ (∃ x y, i = .sub x y) ∨ (∃ x y, i = .shr x y) ∨ (∃ x y, i = .subn x y) ∨
      (∃ x y, i = .shl x y) ∨ (∃ x y n, i = .drw x y n) := by
  unfold writesFlag at h
  split at h <;> simp_all

theorem writesIndex_cases {cfg : Config} {i : Instr} (h : writesIndex cfg i) :
    (∃ a, i = .ldI a) ∨ (∃ x, i = .addIV x) ∨ (∃ x y n, i = .drw x y n) ∨ ∃ x, i = .ldFV x ∧ cfg.font.isSome := by
  unfold writesIndex at h
  split at h <;> simp_all

/-! ## Which instructions write what -/

/-- Settles O46: a completed instruction leaves the flag, or is one of the six and writes 0 or 1. -/
theorem flagIsWrittenBySixInstructions : Obligations.FlagIsWrittenBySixInstructions := by
  unfold Obligations.FlagIsWrittenBySixInstructions
  intro i s t h hf
  exact (exec_effect h hf).flag.imp_right fun ⟨hle, hi⟩ => ⟨hle, writesFlag_cases hi⟩

/-- Settles O47: a completed instruction leaves the index register, or is one of the four. -/
theorem indexIsWrittenByFourInstructions : Obligations.IndexIsWrittenByFourInstructions := by
  unfold Obligations.IndexIsWrittenByFourInstructions
  intro i s t h hf
  exact (exec_effect h hf).index.imp_right writesIndex_cases

/-- Settles O48: of the effects only a call writes a slot, the one above the stack pointer. -/
theorem stackIsReachedByCallAndReturn : Obligations.StackIsReachedByCallAndReturn := by
  unfold Obligations.StackIsReachedByCallAndReturn
  intro i s t h hf
  have he := exec_effect h hf
  refine ⟨?_, he.sp, he.stack_other, he.stack_other 0 (by decide) (by omega)⟩
  obtain hs | ⟨a, ha, -⟩ := he.stack
  · exact .inl hs
  · exact .inr ⟨a, ha⟩

/-- Settles O49: an effect that touches the display sets `dirty`. -/
theorem framebufferIsWrittenByClsAndDrw : Obligations.FramebufferIsWrittenByClsAndDrw := by
  unfold Obligations.FramebufferIsWrittenByClsAndDrw
  intro i s t h hf
  obtain ⟨hfb, hdirty⟩ | ⟨hdirty, hi⟩ := (exec_effect h hf).display
  · exact ⟨.inl ⟨hfb, hdirty⟩, fun hs => hdirty.trans hs⟩
  · exact ⟨.inr hi, fun _ => hdirty⟩

end Sys2Proof.Machine

/-! ## Two runs that differ in one field (spec/60_exceptions.md R210) -/

namespace Sys2Proof.Machine

/-! ### What two such runs have in common -/

/-- Two results of a rule agree up to a masked field: the same trap, or states that the mask does not tell apart. -/
inductive Agree (mask : State → State) : Except Trap State → Except Trap State → Prop
  | ok {t t' : State} (h : mask t' = mask t) : Agree mask (.ok t') (.ok t)
  | error (e : Trap) : Agree mask (.error e) (.error e)

theorem Agree.ite {mask : State → State} {c : Prop} [Decidable c] {a a' b b' : Except Trap State}
    (ha : Agree mask a' a) (hb : Agree mask b' b) :
    Agree mask (if c then a' else b') (if c then a else b) := by
  split
  · exact ha
  · exact hb

theorem Agree.dite {mask : State → State} {c : Prop} [Decidable c] {a a' : c → Except Trap State}
    {b b' : ¬c → Except Trap State} (ha : ∀ h, Agree mask (a' h) (a h)) (hb : ∀ h, Agree mask (b' h) (b h)) :
    Agree mask (if h : c then a' h else b' h) (if h : c then a h else b h) := by
  split
  · exact ha _
  · exact hb _

/-- A data access at the same address raises the same trap. -/
theorem Agree.withAccess {mask : State → State} {kind : Access} {n : Nat} {p p' : State} {rule : State → State}
    (hfault : p'.dataFault kind n = p.dataFault kind n) (h : Agree mask (.ok (rule p')) (.ok (rule p))) :
    Agree mask (withAccess kind n p' rule) (withAccess kind n p rule) := by
  unfold Machine.withAccess
  rw [hfault]
  cases p.dataFault kind n with
  | none => exact h
  | some e => exact .error e

/-- If the rule of an instruction agrees, up to the mask, on a state and on a changed one, then so does the
instruction: it takes the same fault, or completes in two states that the mask does not tell apart. -/
theorem exec_agree {mask : State → State} {i : Instr} {s s' t : State} (hmask : ∀ p : State, (mask p).fault = p.fault)
    (hpc : s'.pc = s.pc)
    (hrule : flagReg ∉ testedRegs i → Agree mask (ruleOf i s'.advance) (ruleOf i s.advance))
    (h : exec i s = .next t) :
    ∃ t', exec i s' = .next t' ∧ t'.fault = t.fault ∧ (t.fault.cause = .none → mask t' = mask t) := by
  rw [exec_eq_perform] at h ⊢
  by_cases hi : flagReg ∈ testedRegs i
  · rw [perform_regIndex hi] at h ⊢
    cases h
    exact ⟨_, rfl, by simp [hpc], fun hf => absurd hf regIndexTrap_coherent.cause⟩
  · rw [perform_rule hi] at h ⊢
    have hagree := hrule hi
    generalize hr : ruleOf i s.advance = r at *
    generalize ruleOf i s'.advance = r' at *
    cases hagree with
    | @ok u u' hm =>
      cases h
      exact ⟨u', rfl, by rw [← hmask u', hm, hmask], fun _ => hm⟩
    | error e =>
      cases h
      exact ⟨_, rfl, by simp [hpc], fun hf => absurd hf (ruleOf_error_coherent hi hr).cause⟩

/-! ### The sound timer -/

/-- The state with another value in the sound timer. -/
def State.putSt (s : State) (b : Byte) : State := { s with st := b }

theorem State.skipIf_putSt (s : State) (c : Bool) (b : Byte) : (s.putSt b).skipIf c = (s.skipIf c).putSt b := by
  cases c <;> rfl

theorem State.setRegsFrom_putSt (s : State) (k : Nat) (bs : List Byte) (b : Byte) :
    (s.putSt b).setRegsFrom k bs = (s.setRegsFrom k bs).putSt b := by
  induction bs generalizing s k with
  | nil => rfl
  | cons v bs ih => exact ih (s.setReg (BitVec.ofNat 4 k) v) (k + 1)

/-- A block of registers is determined by its registers. -/
theorem State.regsFrom_congr {s s' : State} {k n : Nat}
    (h : ∀ j < n, s'.reg (BitVec.ofNat 4 (k + j)) = s.reg (BitVec.ofNat 4 (k + j))) :
    s'.regsFrom k n = s.regsFrom k n :=
  List.ext_getElem (by simp) fun j hj _ => by simpa using h j (by simpa using hj)

theorem State.regsFrom_putSt (s : State) (k n : Nat) (b : Byte) : (s.putSt b).regsFrom k n = s.regsFrom k n :=
  State.regsFrom_congr fun _ _ => rfl

theorem pollRetry_putSt (keys : Word) (x : Reg) (s : State) (b : Byte) :
    pollRetry keys x (s.putSt b) = (pollRetry keys x s).putSt b := by
  unfold pollRetry
  split <;> rfl

/-- No rule reads the sound timer. -/
theorem ruleOf_agree_st (i : Instr) (p : State) (b : Byte) :
    Agree (·.putSt 0) (ruleOf i (p.putSt b)) (ruleOf i p) := by
  cases i with
  | ret => exact .ite (.error _) (.ok rfl)
  | call nnn => exact .dite (fun _ => .error _) (fun _ => .ok rfl)
  | seVK x kk | sneVK x kk => exact .ok (congrArg (·.putSt 0) (p.skipIf_putSt _ b))
  | seVV x y n | sneVV x y n => exact .ok (congrArg (·.putSt 0) (p.skipIf_putSt _ b))
  | skp x | sknp x => exact .ok (congrArg (·.putSt 0) (p.sampled.skipIf_putSt _ b))
  | ldVKey x =>
    simp only [ruleOf, State.putSt]
    cases p.cfg.keywait with
    | stubZero => exact .ok rfl
    | pollRetry => exact .ok (congrArg (·.putSt 0) (pollRetry_putSt p.keysNow x p b))
  | ldFV x =>
    simp only [ruleOf, State.putSt]
    cases p.cfg.font with
    | none => exact .error _
    | some f => exact .ok rfl
  | drw x y n | ldBV x =>
    simp only [ruleOf]
    exact .withAccess rfl (.ok rfl)
  | ldMIV x =>
    simp only [ruleOf]
    exact .withAccess rfl (.ok (by simp only [State.regsFrom_putSt]; rfl))
  | ldVMI x =>
    simp only [ruleOf]
    exact .withAccess rfl (.ok (congrArg (·.putSt 0) (p.setRegsFrom_putSt 0 _ b)))
  | _ => exact .ok rfl

/-! ### The flag register -/

theorem ne_ofNat_of_lt {r : Reg} {k : Nat} (h : k < r.toNat) : r ≠ BitVec.ofNat 4 k := by
  rintro rfl
  have := Nat.mod_le k (2 ^ 4)
  simp only [BitVec.toNat_ofNat] at h
  omega

theorem State.setReg_setReg (s : State) (r : Reg) (a b : Byte) : (s.setReg r a).setReg r b = s.setReg r b := by
  simp [State.setReg]

theorem State.setReg_comm (s : State) {x y : Reg} (h : x ≠ y) (a b : Byte) :
    (s.setReg x a).setReg y b = (s.setReg y b).setReg x a := by
  have hne : x.toNat ≠ y.toNat := fun e => h (BitVec.eq_of_toNat_eq e)
  simp only [State.setReg, Vector.set_comm _ _ hne]

theorem State.skipIf_setReg (s : State) (c : Bool) (r : Reg) (b : Byte) :
    (s.setReg r b).skipIf c = (s.skipIf c).setReg r b := by
  cases c <;> rfl

theorem State.setRegFlag_setReg_flag (s : State) (x : Reg) (a b c : Byte) :
    (s.setReg flagReg a).setRegFlag x b c = s.setRegFlag x b c := by
  simp only [State.setRegFlag, State.setReg_setReg]

/-- A block of registers does not see a register above it. -/
theorem State.regsFrom_setReg (s : State) {r : Reg} (b : Byte) {k n : Nat} (h : k + n ≤ r.toNat) :
    (s.setReg r b).regsFrom k n = s.regsFrom k n :=
  State.regsFrom_congr fun j hj => State.reg_setReg_other s (ne_ofNat_of_lt (by omega)) b

theorem State.setRegsFrom_setReg (r : Reg) (b : Byte) (bs : List Byte) :
    ∀ (s : State) (k : Nat), k + bs.length ≤ r.toNat →
      (s.setReg r b).setRegsFrom k bs = (s.setRegsFrom k bs).setReg r b := by
  induction bs with
  | nil => intro s k _; rfl
  | cons v bs ih =>
    intro s k hk
    simp only [List.length_cons] at hk
    rw [State.setRegsFrom, State.setReg_comm s (ne_ofNat_of_lt (by omega)), ih _ _ (by omega), State.setRegsFrom]

theorem pollRetry_setReg (keys : Word) {x r : Reg} (h : r ≠ x) (s : State) (b : Byte) :
    pollRetry keys x (s.setReg r b) = (pollRetry keys x s).setReg r b := by
  unfold pollRetry
  split
  · rfl
  · exact State.setReg_comm s.sampled h b _

/-- No rule reads the flag register, once the register fields are known not to name it: a result carries the other flag
along, or overwrites it. -/
theorem ruleOf_agree_flag {i : Instr} (hi : flagReg ∉ testedRegs i) (p : State) (b : Byte) :
    Agree (·.setReg flagReg 0) (ruleOf i (p.setReg flagReg b)) (ruleOf i p) := by
  have carries {t t' : State} (h : t' = t.setReg flagReg b) : Agree (·.setReg flagReg 0) (.ok t') (.ok t) :=
    .ok (by simp only [h, State.setReg_setReg])
  have overwrites {t t' : State} (h : t' = t) : Agree (·.setReg flagReg 0) (.ok t') (.ok t) := .ok (by rw [h])
  have hreg {x : Reg} (hx : flagReg ≠ x) : (p.setReg flagReg b).reg x = p.reg x := p.reg_setReg_other hx b
  cases i with
  | cls | sys nnn | jp nnn | ldI nnn => exact carries rfl
  | ret => exact .ite (.error _) (carries rfl)
  | call nnn => exact .dite (fun _ => .error _) (fun _ => carries rfl)
  | jpV0 nnn => exact carries (by rw [hreg (by decide)]; rfl)
  | seVK x kk | sneVK x kk =>
    exact carries (by rw [hreg (List.ne_of_not_mem_cons hi)]; exact p.skipIf_setReg _ _ _)
  | skp x | sknp x =>
    exact carries (by rw [hreg (List.ne_of_not_mem_cons hi)]; exact p.sampled.skipIf_setReg _ _ _)
  | seVV x y n | sneVV x y n =>
    obtain ⟨hx, hy⟩ : flagReg ≠ x ∧ flagReg ≠ y := by simpa [testedRegs] using hi
    exact carries (by rw [hreg hx, hreg hy]; exact p.skipIf_setReg _ _ _)
  | ldVK x kk | ldVDT x => exact carries (p.setReg_comm (List.ne_of_not_mem_cons hi) _ _)
  | rnd x kk => exact carries (p.drawn.setReg_comm (List.ne_of_not_mem_cons hi) _ _)
  | addVK x kk =>
    have hx := List.ne_of_not_mem_cons hi
    exact carries (by rw [hreg hx]; exact p.setReg_comm hx _ _)
  | ldVV x y | or x y | and x y | xor x y =>
    obtain ⟨hx, hy⟩ : flagReg ≠ x ∧ flagReg ≠ y := by simpa [testedRegs] using hi
    exact carries (by simp only [hreg hx, hreg hy]; exact p.setReg_comm hx _ _)
  | addVV x y | sub x y | subn x y | shr x y | shl x y =>
    obtain ⟨hx, hy⟩ : flagReg ≠ x ∧ flagReg ≠ y := by simpa [testedRegs] using hi
    exact overwrites (by simp only [hreg hx, hreg hy, State.setRegFlag_setReg_flag])
  | ldVKey x =>
    have hx := List.ne_of_not_mem_cons hi
    simp only [ruleOf, State.setReg_cfg]
    cases p.cfg.keywait with
    | stubZero => exact carries (p.setReg_comm hx _ _)
    | pollRetry => exact carries (pollRetry_setReg p.keysNow hx p b)
  | ldDTV x | ldSTV x | addIV x => exact carries (by rw [hreg (List.ne_of_not_mem_cons hi)]; rfl)
  | ldFV x =>
    simp only [ruleOf, State.setReg_cfg]
    cases p.cfg.font with
    | none => exact .error _
    | some f => exact carries (by simp only [hreg (List.ne_of_not_mem_cons hi)]; rfl)
  | drw x y n =>
    obtain ⟨hx, hy⟩ : flagReg ≠ x ∧ flagReg ≠ y := by simpa [testedRegs] using hi
    have hdraw : (p.setReg flagReg b).drawing x y n = p.drawing x y n := by
      simp only [State.drawing, hreg hx, hreg hy]
      rfl
    simp only [ruleOf]
    exact .withAccess rfl (overwrites (by simp only [hdraw, State.setReg_setReg]; rfl))
  | ldBV x =>
    simp only [ruleOf]
    exact .withAccess rfl (carries (by rw [hreg (List.ne_of_not_mem_cons hi)]; rfl))
  | ldMIV x =>
    have hlen : 0 + (x.toNat + 1) ≤ flagReg.toNat := by
      have := toNat_le_of_not_flagReg (List.ne_of_not_mem_cons hi)
      exact (by omega : 0 + (x.toNat + 1) ≤ 15)
    simp only [ruleOf]
    exact .withAccess rfl (carries (by rw [State.regsFrom_setReg p b hlen]; rfl))
  | ldVMI x =>
    have hlen : 0 + (x.toNat + 1) ≤ flagReg.toNat := by
      have := toNat_le_of_not_flagReg (List.ne_of_not_mem_cons hi)
      exact (by omega : 0 + (x.toNat + 1) ≤ 15)
    simp only [ruleOf]
    exact .withAccess rfl (carries (State.setRegsFrom_setReg _ b _ p 0 (by rwa [Memory.readBytes_length])))

/-! ### An instruction and a step -/

theorem State.setReg_eq_of_setReg_zero {s t : State} {r : Reg} (h : s.setReg r 0 = t.setReg r 0) (c : Byte) :
    s.setReg r c = t.setReg r c := by
  rw [← s.setReg_setReg r 0 c, h, State.setReg_setReg]

theorem exec_agree_flag (i : Instr) (b : Byte) (s t : State) (h : exec i s = .next t) :
    ∃ t', exec i (s.setReg flagReg b) = .next t' ∧ t'.fault = t.fault ∧
      (t.fault.cause = .none → ∀ c, t'.setReg flagReg c = t.setReg flagReg c) := by
  obtain ⟨t', ht', hfault, hmask⟩ := exec_agree (mask := (·.setReg flagReg 0)) (s := s) (s' := s.setReg flagReg b)
    (fun _ => rfl) rfl (fun hi => ruleOf_agree_flag hi s.advance b) h
  exact ⟨t', ht', hfault, fun hf => State.setReg_eq_of_setReg_zero (hmask hf)⟩

/-- Settles O52: neither fetch nor decode nor any rule reads `V[15]`. -/
theorem flagRegisterIsNeverRead : Obligations.FlagRegisterIsNeverRead := by
  unfold Obligations.FlagRegisterIsNeverRead
  refine ⟨exec_agree_flag, fun b s t h => ?_⟩
  obtain ⟨hs, ⟨e, he, rfl⟩ | ⟨err, hn, hd, rfl⟩ | ⟨i, hn, hd, hexec⟩⟩ := step_cases h
  · exact ⟨_, step_fetchFault (s := s.setReg flagReg b) hs he, rfl, fun hf => absurd hf (fetchFault_coherent he).cause⟩
  · exact ⟨_, step_illegal (s := s.setReg flagReg b) hs hn hd, rfl, fun hf => absurd hf illegalTrap_coherent.cause⟩
  · rw [step_decoded (s := s.setReg flagReg b) hs hn hd]
    exact exec_agree_flag i b s t hexec

end Sys2Proof.Machine

namespace Sys2Proof.Machine

/-! ## `render_ack` (spec/44_display.md R163) -/

/-- Settles O40: of the other operations only a step could, and no completed instruction clears `dirty`. -/
theorem renderAckAloneClearsDirty : Obligations.RenderAckAloneClearsDirty := by
  unfold Obligations.RenderAckAloneClearsDirty
  refine ⟨fun _ => rfl, fun op s t h hf hs ht => ?_⟩
  have absurd_of_eq {p : Prop} (hd : t.dirty = s.dirty) : p := by simp [hs, ht] at hd
  cases op with
  | init => exact .inr rfl
  | renderAck => exact .inl rfl
  | load bytes =>
    obtain ⟨-, rfl⟩ := hostOp_load h
    exact absurd_of_eq (by rw [State.load_eq])
  | tick => cases h; exact absurd_of_eq rfl
  | step =>
    obtain ⟨i, -, hexec⟩ := step_completes h hf
    obtain ⟨-, hd⟩ | ⟨hd, -⟩ := (exec_effect hexec hf).display
    · exact absurd_of_eq hd
    · simp [hd] at ht

/-! ## The timers (spec/10_state.md R21) -/

theorem countDown_eq (t : Byte) : countDown t = BitVec.ofNat 8 (t.toNat - 1) := by
  unfold countDown
  split
  · rename_i h
    subst h
    rfl
  · rename_i h
    apply BitVec.eq_of_toNat_eq
    have : t.toNat ≠ 0 := fun h0 => h (BitVec.eq_of_toNat_eq h0)
    have := t.isLt
    have hone : (1 : Byte).toNat = 1 := rfl
    simp only [BitVec.toNat_sub, BitVec.toNat_ofNat]
    omega

/-- Besides `init` and `tick` only a step that executes `LD DT, Vx` or `LD ST, Vx` moves a timer. -/
theorem hostOp_timers {op : HostOp} {s t : State} (hinit : op ≠ .init) (htick : op ≠ .tick)
    (h : hostOp op s = .next t) (hf : t.fault.cause = .none) :
    (t.dt = s.dt ∨ ∃ x, op = .step ∧ decodeWord s.fetchWord = .ok (.ldDTV x) ∧ t.dt = s.reg x) ∧
      (t.st = s.st ∨ ∃ x, op = .step ∧ decodeWord s.fetchWord = .ok (.ldSTV x) ∧ t.st = s.reg x) := by
  cases op with
  | init => exact absurd rfl hinit
  | tick => exact absurd rfl htick
  | renderAck => cases h; exact ⟨.inl rfl, .inl rfl⟩
  | load bytes =>
    obtain ⟨-, rfl⟩ := hostOp_load h
    rw [State.load_eq]
    exact ⟨.inl rfl, .inl rfl⟩
  | step =>
    obtain ⟨i, hd, hexec⟩ := step_completes h hf
    have he := exec_effect hexec hf
    exact ⟨he.dt.imp_right fun ⟨x, hi, hv⟩ => ⟨x, rfl, hi ▸ hd, hv⟩,
      he.st.imp_right fun ⟨x, hi, hv⟩ => ⟨x, rfl, hi ▸ hd, hv⟩⟩

theorem exec_ldVDT_next {x : Reg} (hx : flagReg ≠ x) (s : State) :
    ∃ t, exec (.ldVDT x) s = .next t ∧ t.reg x = s.dt :=
  ⟨s.advance.setReg x s.dt, exec_ok (by simpa [testedRegs] using hx) rfl, State.reg_setReg_same _ _ _⟩

/-- Settles O45: what each operation and each completed instruction does to the timers, and two runs that differ in ST
alone. -/
theorem timersMoveOnlyByTickOrLoad : Obligations.TimersMoveOnlyByTickOrLoad := by
  unfold Obligations.TimersMoveOnlyByTickOrLoad
  refine ⟨⟨rfl, rfl⟩, fun s => ?_, fun _ _ _ => hostOp_timers, fun x s hx => exec_ldVDT_next hx.symm s,
    fun i b s t h => ?_⟩
  · simp only [hostOp, State.tick, countDown_eq]
  · exact exec_agree (mask := (·.putSt 0)) (s := s) (s' := s.putSt b) (fun _ => rfl) rfl
      (fun _ => ruleOf_agree_st i s.advance b) h

/-! ## Nested calls (spec/10_state.md R20) -/

theorem flagReg_not_mem_testedRegs_call (a : Addr12) : flagReg ∉ testedRegs (.call a) := List.not_mem_nil

/-- A call that fits on the stack succeeds. -/
theorem exec_call_next (a : Addr12) {s : State} (h : s.sp.val + 1 ≤ 15) :
    ∃ t, exec (.call a) s = .next t ∧ t.sp.val = s.sp.val + 1 ∧ t.fault = s.fault :=
  ⟨_, exec_ok (flagReg_not_mem_testedRegs_call a) (dif_neg (Nat.not_lt.mpr h)), rfl, rfl⟩

theorem exec_call_overflow (a : Addr12) {s : State} (h : 15 < s.sp.val + 1) :
    takesRecord (.call a) s .stackOverflow 0 :=
  ⟨_, exec_trap (flagReg_not_mem_testedRegs_call a) (dif_pos h), rfl⟩

/-- Calls that fit on the stack all succeed. -/
theorem callAll_next (targets : List Addr12) : ∀ s : State, s.sp.val + targets.length ≤ 15 →
    ∃ t, callAll targets s = .next t ∧ t.sp.val = s.sp.val + targets.length ∧ t.fault = s.fault := by
  induction targets with
  | nil => exact fun s _ => ⟨s, rfl, rfl, rfl⟩
  | cons a targets ih =>
    intro s h
    rw [List.length_cons] at h
    obtain ⟨u, hu, husp, hufault⟩ := exec_call_next a (s := s) (by omega)
    obtain ⟨t, ht, htsp, htfault⟩ := ih u (by omega)
    refine ⟨t, ?_, by rw [htsp, husp, List.length_cons]; omega, htfault.trans hufault⟩
    simpa only [callAll, hu] using ht

/-- Settles O20, by induction on the list of targets. -/
theorem fifteenNestedCallsSucceed : Obligations.FifteenNestedCallsSucceed := by
  unfold Obligations.FifteenNestedCallsSucceed
  refine ⟨fun targets s hs hlen => ?_, fun targets a s hs hlen => ?_⟩
  · obtain ⟨t, ht, hsp, hfault⟩ := callAll_next targets s (by omega)
    exact ⟨t, ht, by omega, hfault⟩
  · obtain ⟨t, ht, hsp, -⟩ := callAll_next targets s (by omega)
    exact ⟨t, ht, exec_call_overflow a (by omega)⟩

end Sys2Proof.Machine

/-! ## The invariant (Sys2Proof/Safety.lean) -/

namespace Sys2Proof.Machine

/-! ### A fault keeps it -/

/-- A coherent trap leaves a coherent record. -/
theorem State.Running.raise_inv {s : State} (hs : s.Running) {e : Trap} (he : e.Coherent) (ir : Word) :
    (s.raise e ir).Inv where
  running hf := absurd hf he.cause
  faultClear hf := absurd hf he.cause
  faultPc := hs.pcBound
  faultAddr := he.addr
  faultRange := he.range
  faultGuard := he.guard
  faultNoAddr := he.noAddr

/-- A machine without a fault has the invariant when its record is clear. -/
theorem State.Running.inv {s : State} (hs : s.Running) (hf : s.fault = FaultRecord.clear) : s.Inv where
  running _ := hs
  faultClear _ := hf
  faultPc := by simp [hf, FaultRecord.clear]
  faultAddr := by simp [hf, FaultRecord.clear]
  faultRange := by simp [hf, FaultRecord.clear]
  faultGuard := by simp [hf, FaultRecord.clear]
  faultNoAddr := by simp [hf, FaultRecord.clear]

/-- An operation that leaves the fault record keeps the invariant if it keeps the bounds of a machine without a fault. -/
theorem State.Inv.of_fault_eq {s t : State} (hs : s.Inv) (hf : t.fault = s.fault) (hr : s.Running → t.Running) :
    t.Inv where
  running h := hr (hs.running (hf ▸ h))
  faultClear := hf ▸ hs.faultClear
  faultPc := hf ▸ hs.faultPc
  faultAddr := hf ▸ hs.faultAddr
  faultRange := hf ▸ hs.faultRange
  faultGuard := hf ▸ hs.faultGuard
  faultNoAddr := hf ▸ hs.faultNoAddr

/-! ### A completed instruction keeps it -/

theorem State.stuck_none_iff {s : State} : s.stuck = none ↔ s.loaded = true ∧ s.fault.cause = .none := by
  unfold State.stuck
  split
  · simp_all
  · split <;> simp_all

/-- The fetch accepts 0x200 to 0xFFE. -/
theorem fetchFault_none_bounds {s : State} (h : s.fetchFault = none) : 0x200 ≤ s.pc.toNat ∧ s.pc.toNat + 2 ≤ 0x1000 :=
  accessFault_none_program (by decide) (by decide) h

theorem advance_pc_toNat {s : State} (h : s.fetchFault = none) : s.advance.pc.toNat = s.pc.toNat + 2 := by
  have := fetchFault_none_bounds h
  simp
  omega

/-- An instruction that was fetched leaves `pc` at most 0x10FE (R16). -/
theorem Effect.pc_le {i : Instr} {s t : State} (h : Effect i s.advance t) (hs : s.Running)
    (hfetch : s.fetchFault = none) : t.pc.toNat ≤ 0x10FE := by
  have hpc := advance_pc_toNat hfetch
  have htwo : (2 : Word).toNat = 2 := rfl
  obtain ⟨hlo, hhi⟩ := fetchFault_none_bounds hfetch
  obtain (hp | hp | hp | hp) | hp := h.pc
  · rw [hp]
    omega
  · rw [hp, BitVec.toNat_add]
    omega
  · rw [hp, BitVec.toNat_sub]
    omega
  · exact hp
  · rw [hp]
    exact le_trans (hs.slotBound _ s.sp.isLt) (by decide)

/-- `CALL` pushes the address after an instruction that was fetched (R16). -/
theorem Effect.slot_le {i : Instr} {s t : State} (h : Effect i s.advance t) (hs : s.Running)
    (hfetch : s.fetchFault = none) (k : Nat) (hk : k < 16) : (t.stack[k]).toNat ≤ 0x1000 := by
  have hpc := advance_pc_toNat hfetch
  obtain ⟨hlo, hhi⟩ := fetchFault_none_bounds hfetch
  obtain hst | ⟨-, -, hsp, hst⟩ := h.stack
  · rw [hst]
    exact hs.slotBound k hk
  · rw [hst, Vector.getElem_set]
    split
    · omega
    · exact hs.slotBound k hk

theorem Effect.mem_wf {i : Instr} {p t : State} (h : Effect i p t) (hp : p.mem.wf = true) : t.mem.wf = true := by
  obtain hm | ⟨bs, -, hhi, hm⟩ := h.mem
  · rw [hm]
    exact hp
  · rw [hm]
    exact Memory.writeBytes_wf hp hhi

/-- No instruction writes the guard region (spec/20_memory.md R47). -/
theorem Effect.read_guard {i : Instr} {p t : State} (h : Effect i p t) (hp : p.mem.wf = true) {a : Nat}
    (ha : a < 0x200) : t.mem.read a = p.mem.read a := by
  obtain hm | ⟨bs, hlo, hhi, hm⟩ := h.mem
  · rw [hm]
  · rw [hm, Memory.read_writeBytes hp hhi, dif_neg (by omega)]

theorem Effect.flag_le {i : Instr} {p t : State} (h : Effect i p t) (hp : (p.reg flagReg).toNat ≤ 1) :
    (t.reg flagReg).toNat ≤ 1 := by
  obtain hv | ⟨hle, -⟩ := h.flag
  · rw [hv]
    exact hp
  · exact hle

/-- The guard region stays as it is: it is still 0, or the placed font. -/
theorem State.Running.guardRegion_of_eq {s t : State} (hs : s.Running) (hcfg : t.cfg = s.cfg)
    (hread : ∀ a, a < 0x200 → t.mem.read a = s.mem.read a) :
    (∀ a, a < 0x200 → t.mem.read a = 0) ∨
      ∃ f, t.cfg.font = some f ∧ ∀ a, a < 0x200 → t.mem.read a = fontByteAt f a := by
  obtain h0 | ⟨f, hf, hbytes⟩ := hs.guardRegion
  · exact .inl fun a ha => (hread a ha).trans (h0 a ha)
  · exact .inr ⟨f, hcfg ▸ hf, fun a ha => (hread a ha).trans (hbytes a ha)⟩

/-- A completed instruction leaves a machine within its bounds. -/
theorem State.Running.effect {i : Instr} {s t : State} (hs : s.Running) (hl : s.loaded = true)
    (hfetch : s.fetchFault = none) (h : Effect i s.advance t) : t.Running where
  memory := h.mem_wf hs.memory
  guardRegion := hs.guardRegion_of_eq h.cfg fun _ ha => h.read_guard hs.memory ha
  flag := h.flag_le hs.flag
  pcBound := h.pc_le hs hfetch
  slotBound := h.slot_le hs hfetch
  slotZero := (h.stack_other 0 (by decide) (by omega)).trans hs.slotZero
  romLen := h.romLen ▸ hs.romLen
  unloaded hu := absurd (h.loaded.trans hl) (by simp [hu])

/-- An instruction that was fetched keeps the invariant. -/
theorem exec_inv {i : Instr} {s t : State} (hs : s.Running) (hf : s.fault = FaultRecord.clear) (hl : s.loaded = true)
    (hfetch : s.fetchFault = none) (h : exec i s = .next t) : t.Inv := by
  obtain ⟨-, rfl⟩ | ⟨hi, hok⟩ | ⟨hi, e, he, rfl⟩ := exec_cases h
  · exact hs.raise_inv regIndexTrap_coherent _
  · have heff := ruleOf_effect hi hok
    exact (hs.effect hl hfetch heff).inv (heff.fault.trans hf)
  · exact hs.raise_inv (ruleOf_error_coherent hi he) _

/-- Settles O59: a fault leaves a coherent record, and a completed instruction keeps every bound. -/
theorem stepKeepsTheInvariant : Obligations.StepKeepsTheInvariant := by
  unfold Obligations.StepKeepsTheInvariant
  intro s t hs h
  obtain ⟨hstuck, hcases⟩ := step_cases h
  obtain ⟨hl, hf⟩ := State.stuck_none_iff.mp hstuck
  have hr := hs.running hf
  obtain ⟨e, he, rfl⟩ | ⟨err, -, -, rfl⟩ | ⟨i, hfetch, -, hexec⟩ := hcases
  · exact hr.raise_inv (fetchFault_coherent he) _
  · exact hr.raise_inv illegalTrap_coherent _
  · exact exec_inv hr (hs.faultClear hf) hl hfetch hexec

/-! ### The host's other operations keep it (spec/10_state.md R29) -/

/-- The state after `init`, for any parameters and any position of the free inputs. -/
theorem State.init_running (s : State) : s.init.Running where
  memory := rfl
  guardRegion := .inl fun _ _ => rfl
  flag := by simp [State.init, State.resetFor, State.reg]
  pcBound := (by decide : (BitVec.ofNat 16 Config.progBase).toNat ≤ 0x10FE)
  slotBound k hk := by simp [State.init, State.resetFor]
  slotZero := rfl
  romLen := Nat.zero_le _
  unloaded _ := ⟨rfl, fun _ _ => rfl⟩

theorem State.init_inv (s : State) : s.init.Inv := s.init_running.inv rfl

theorem State.resetFor_inv (cfg : Config) : (State.resetFor cfg).Inv := (State.resetFor cfg).init_inv

/-- New timers and a new dirty flag break no bound, as long as they are 0 and off on an unloaded engine. -/
theorem State.Running.setTimersDirty {s : State} (hs : s.Running) (dt st : Byte) (dirty : Bool)
    (h : s.loaded = false → { s with dt := dt, st := st, dirty := dirty } = s) :
    { s with dt := dt, st := st, dirty := dirty }.Running where
  memory := hs.memory
  guardRegion := hs.guardRegion
  flag := hs.flag
  pcBound := hs.pcBound
  slotBound := hs.slotBound
  slotZero := hs.slotZero
  romLen := hs.romLen
  unloaded hl := (h hl).symm ▸ hs.unloaded hl

theorem State.Running.tick {s : State} (hs : s.Running) : s.tick.Running :=
  hs.setTimersDirty _ _ s.dirty fun hl => by rw [(hs.unloaded hl).1]; rfl

theorem State.Running.renderAck {s : State} (hs : s.Running) : s.renderAck.Running :=
  hs.setTimersDirty s.dt s.st false fun hl => by rw [(hs.unloaded hl).1]; rfl

/-- The ROM ends at most at 0x1000 (spec/70_reset_and_hazards.md R232). -/
theorem State.Running.load {s : State} (hs : s.Running) (bytes : List Byte) : (s.load bytes).Running := by
  unfold State.load loadResult
  by_cases hlen : bytes.length ≤ Config.romMax
  · have hend : Config.progBase + bytes.length ≤ Config.memSize := by
      simp only [Config.romMax, Config.progBase, Config.memSize] at *
      omega
    simp only [if_pos hlen]
    exact {
      memory := Memory.writeBytes_wf hs.memory hend
      guardRegion := hs.guardRegion_of_eq rfl fun a ha => by
        rw [Memory.read_writeBytes hs.memory hend, dif_neg (by simp only [Config.progBase]; omega)]
      flag := hs.flag
      pcBound := hs.pcBound
      slotBound := hs.slotBound
      slotZero := hs.slotZero
      romLen := hlen
      unloaded := fun hl => absurd hl (by simp) }
  · simp only [if_neg hlen]
    exact hs

/-! ### The platform's placing of a font keeps it (spec/20_memory.md R41) -/

theorem fontByteAt_of_mem {f : Font} {a : Nat} (h : f.base ≤ a) (h' : a - f.base < f.bytes.length) :
    fontByteAt f a = f.bytes[a - f.base] := by
  simp [fontByteAt, h, h']

theorem fontByteAt_of_not_mem {f : Font} {a : Nat} (h : ¬ (f.base ≤ a ∧ a - f.base < f.bytes.length)) :
    fontByteAt f a = 0 := by
  unfold fontByteAt
  split
  · simp only [List.getD_eq_getElem?_getD]
    rw [List.getElem?_eq_none (by omega)]
    rfl
  · rfl

/-- Around the window the guard region is 0, before a font is placed and after. -/
theorem State.Running.read_outside_font {s : State} (hs : s.Running) {f : Font} (hf : s.cfg.font = some f) {a : Nat}
    (ha : a < 0x200) (hout : ¬ (f.base ≤ a ∧ a - f.base < f.bytes.length)) : s.mem.read a = 0 := by
  obtain h0 | ⟨f', hf', hbytes⟩ := hs.guardRegion
  · exact h0 a ha
  · obtain rfl : f' = f := by simpa [hf] using hf'.symm
    rw [hbytes a ha, fontByteAt_of_not_mem hout]

theorem State.Running.read_placeFont_guard {s : State} (hs : s.Running) {f : Font} (hf : s.cfg.font = some f) {a : Nat}
    (ha : a < 0x200) : s.placeFont.mem.read a = fontByteAt f a := by
  rw [State.read_placeFont hs.memory hf]
  by_cases hin : f.base ≤ a ∧ a - f.base < f.bytes.length
  · rw [dif_pos ⟨ha, hin⟩, fontByteAt_of_mem hin.1 hin.2]
  · rw [dif_neg fun h => hin h.2, fontByteAt_of_not_mem hin, hs.read_outside_font hf ha hin]

theorem State.Running.read_placeFont_above {s : State} (hs : s.Running) {f : Font} (hf : s.cfg.font = some f) {a : Nat}
    (ha : 0x200 ≤ a) : s.placeFont.mem.read a = s.mem.read a := by
  rw [State.read_placeFont hs.memory hf, dif_neg (by omega)]

theorem State.Running.placeFont {s : State} (hs : s.Running) : s.placeFont.Running := by
  cases hf : s.cfg.font with
  | none => rwa [State.placeFont_none hf]
  | some f =>
    exact {
      memory := Memory.withFont_wf _ hs.memory
      guardRegion := .inr ⟨f, hf, fun _ => hs.read_placeFont_guard hf⟩
      flag := hs.flag
      pcBound := hs.pcBound
      slotBound := hs.slotBound
      slotZero := hs.slotZero
      romLen := hs.romLen
      unloaded := fun hl => by
        obtain ⟨heq, hzero⟩ := hs.unloaded hl
        refine ⟨?_, fun a ha => (hs.read_placeFont_above hf ha).trans (hzero a ha)⟩
        exact congrArg (fun q : State => { q with mem := s.placeFont.mem }) heq }

theorem State.Inv.placeFont {s : State} (hs : s.Inv) : s.placeFont.Inv :=
  hs.of_fault_eq rfl State.Running.placeFont

theorem hostOp_inv (op : HostOp) (s t : State) (hs : s.Inv) (h : hostOp op s = .next t) : t.Inv := by
  cases op with
  | init => cases h; exact s.init_inv
  | load bytes =>
    obtain ⟨-, rfl⟩ := hostOp_load h
    exact hs.of_fault_eq (by rw [State.load_eq]) (·.load bytes)
  | step => exact stepKeepsTheInvariant s t hs h
  | tick => cases h; exact hs.of_fault_eq rfl State.Running.tick
  | renderAck => cases h; exact hs.of_fault_eq rfl State.Running.renderAck

/-- Every reachable state has the invariant, by induction on how it is reached. -/
theorem Reachable.inv {s : State} (h : Reachable s) : s.Inv := by
  induction h with
  | init cfg => exact State.resetFor_inv cfg
  | op o _ hop ih => exact hostOp_inv o _ _ ih hop
  | font _ _ ih => exact ih.placeFont

/-- Settles O60: each host operation and the placing of a font keep the invariant, and `init` establishes it. -/
theorem everyReachableStateHasTheInvariant : Obligations.EveryReachableStateHasTheInvariant :=
  ⟨hostOp_inv, fun _ => State.Inv.placeFont, fun _ => Reachable.inv⟩

end Sys2Proof.Machine

/-! ## Memory (spec/20_memory.md): what a data access may reach, who writes memory, and code that is stored -/

namespace Sys2Proof.Machine

/-! ### The model's checks and the addresses an access may reach (spec/20_memory.md R46, R47) -/

theorem fontReadable_read_iff {cfg : Config} {a : Nat} :
    fontReadable cfg .read a = true ↔ ∃ f ∈ cfg.font, f.base ≤ a ∧ a < f.base + f.bytes.length := by
  unfold fontReadable
  cases cfg.font <;> simp [inFontWindow]

/-- The check of one byte passes exactly where the access may reach. -/
theorem addressFault_none_iff_accessible {s : State} {kind : Access} {a : Nat} :
    addressFault s.cfg kind a = none ↔ accessible s kind a := by
  rw [addressFault_none_iff]
  cases kind with
  | read =>
    rw [fontReadable_read_iff]
    exact and_congr_left' Nat.lt_succ_iff
  | write | fetch => simp [accessible, fontReadable, and_comm, Nat.lt_succ_iff]

/-- Program space is open to every access, with or without a font. -/
theorem accessible_of_program {s : State} {kind : Access} {a : Nat} (hlo : 0x200 ≤ a) (hhi : a < 0x1000) :
    accessible s kind a :=
  addressFault_none_iff_accessible.mp (addressFault_program hlo hhi)

/-- No access reaches beyond the address space. -/
theorem not_accessible_of_above {s : State} {kind : Access} {a : Nat} (ha : 0x1000 ≤ a) : ¬ accessible s kind a :=
  fun h => absurd (addressFault_none_iff.mp (addressFault_none_iff_accessible.mpr h)).1 (Nat.not_lt.mpr ha)

/-- The guard region opens to nothing but a read where there is a font (R47). -/
theorem not_accessible_of_guard {s : State} {kind : Access} {a : Nat} (ha : a < 0x200)
    (h : kind ≠ .read ∨ s.cfg.font = none) : ¬ accessible s kind a := by
  rw [← addressFault_none_iff_accessible, addressFault_none_iff]
  rintro ⟨-, hlo | hfont⟩
  · exact absurd ha (Nat.not_lt.mpr hlo)
  · cases kind with
    | read =>
      obtain ⟨f, hf, -⟩ := fontReadable_read_iff.mp hfont
      simp [h.resolve_left (· rfl)] at hf
    | write | fetch => cases hfont

/-- A byte that an access may not reach raises MEM_GUARD below 0x200 and MEM_RANGE above 0xFFF. -/
theorem addressFault_of_not_accessible {s : State} {kind : Access} {a : Nat} (h : ¬ accessible s kind a) :
    addressFault s.cfg kind a = some (if a < 0x200 then .memGuard else .memRange) := by
  obtain ⟨c, hc⟩ := Option.ne_none_iff_exists'.mp (mt addressFault_none_iff_accessible.mp h)
  obtain ⟨rfl, hr⟩ | ⟨rfl, hg⟩ := addressFault_some hc
  · rw [hc, if_neg (Nat.not_lt.mpr (le_trans (by decide) hr))]
  · rw [hc, if_pos hg]

/-- An access whose first failing byte is the `k`-th reports that byte, not wrapped (R48, R49). -/
theorem accessFault_of_first {cfg : Config} {kind : Access} {ea n k : Nat} {c : Cause} (hk : k < n)
    (hbefore : ∀ j, j < k → addressFault cfg kind (ea + j) = none) (hc : addressFault cfg kind (ea + k) = some c) :
    accessFault cfg kind ea n = some { cause := c, addr := ea + k } := by
  cases h : accessFault cfg kind ea n with
  | none => simp [(accessFault_none_iff n).mp h k hk] at hc
  | some e =>
    obtain ⟨k', -, haddr, hcause, hbefore'⟩ := accessFault_some n h
    obtain hlt | rfl | hgt := Nat.lt_trichotomy k k'
    · simp [hbefore' k hlt] at hc
    · obtain rfl : e.cause = c := by simpa [hc] using hcause.symm
      rw [← haddr]
    · simp [hbefore k' hgt] at hcause

/-! ### The record of a failing data access -/

/-- An instruction whose data access fails traps with that access's fault. -/
theorem ruleOf_dataFault {i : Instr} {kind : Access} {len : Nat} {p : State} {e : Trap}
    (hi : dataAccess i = some (kind, len)) (he : p.dataFault kind len = some e) : ruleOf i p = .error e := by
  cases i with
  | drw x y n | ldBV x | ldMIV x | ldVMI x =>
    cases hi
    simp only [ruleOf, withAccess_trap he]
  | _ => cases hi

section DataAccess

variable {i : Instr} {kind : Access} {len : Nat} {s : State}
  (hi : flagReg ∉ testedRegs i) (hd : dataAccess i = some (kind, len))

include hi hd

/-- The lowest byte that the access may not reach is recorded, with its own cause. -/
theorem takesRecord_of_first {k : Nat} (hk : k < len) (hbefore : ∀ j, j < k → accessible s kind (s.index.toNat + j))
    (hfail : ¬ accessible s kind (s.index.toNat + k)) :
    takesRecord i s (if s.index.toNat + k < 0x200 then .memGuard else .memRange) (s.index.toNat + k) :=
  have he := accessFault_of_first hk (fun j hj => addressFault_none_iff_accessible.mpr (hbefore j hj))
    (addressFault_of_not_accessible hfail)
  ⟨_, exec_trap hi (ruleOf_dataFault hd he), rfl⟩

/-- An access that begins in or above program space and runs past the top fails at its first byte from 0x1000 up. -/
theorem takesRecord_memRange (hlen : 0 < len) (hlo : 0x200 ≤ s.index.toNat) (hhi : 0x1000 < s.index.toNat + len) :
    takesRecord i s .memRange (max s.index.toNat 0x1000) := by
  have haddr : s.index.toNat + (max s.index.toNat 0x1000 - s.index.toNat) = max s.index.toNat 0x1000 := by omega
  have hrec := takesRecord_of_first hi hd (s := s) (k := max s.index.toNat 0x1000 - s.index.toNat) (by omega)
    (fun j hj => accessible_of_program (by omega) (by omega)) (not_accessible_of_above (by omega))
  rwa [haddr, if_neg (by omega)] at hrec

/-- An access that begins in the guard region, unless it is a read on a machine with a font, fails at `I`. -/
theorem takesRecord_memGuard (hlen : 0 < len) (hlo : s.index.toNat < 0x200)
    (h : kind = .write ∨ s.cfg.font = none) : takesRecord i s .memGuard s.index.toNat := by
  have hkind : kind ≠ .read ∨ s.cfg.font = none := h.imp_left (by rintro rfl; decide)
  have hrec := takesRecord_of_first hi hd (k := 0) hlen (fun j hj => absurd hj (Nat.not_lt_zero j))
    (not_accessible_of_guard hlo hkind)
  rwa [Nat.add_zero, if_pos hlo] at hrec

end DataAccess

/-- Settles O35: the access reports its first byte that fails; past the top and below program space that byte is
known. -/
theorem dataFaultReportsLowestAddress : Obligations.DataFaultReportsLowestAddress := by
  unfold Obligations.DataFaultReportsLowestAddress
  exact fun i kind len s hi hd =>
    ⟨fun k => takesRecord_of_first hi hd, takesRecord_memRange hi hd, takesRecord_memGuard hi hd⟩

/-! ### The window of a font (spec/20_memory.md R41, R47) -/

/-- A fetch in the guard region faults at `pc`, with or without a font. -/
theorem fetchFault_of_guard {s : State} (h : s.pc.toNat < 0x200) :
    s.fetchFault = some { cause := .memGuard, addr := s.pc.toNat } := by
  have hfail := addressFault_of_not_accessible (not_accessible_of_guard (s := s) h (kind := .fetch) (.inl (by decide)))
  rw [if_pos h] at hfail
  exact accessFault_of_first (k := 0) (by decide) (fun j hj => absurd hj (Nat.not_lt_zero j)) hfail

/-- Settles O36: a read passes where it is readable, a store and a fetch in the guard region fault, and the placing of
a font is read back byte by byte. -/
theorem fontWindowOpensOnlyReads : Obligations.FontWindowOpensOnlyReads := by
  unfold Obligations.FontWindowOpensOnlyReads
  refine ⟨fun s a => addressFault_none_iff_accessible, fun x s hx hlo => ?_, fun s hl hf hlo => ?_,
    fun s => State.placeFont_none, fun f s hwf hfont => ⟨fun k hk hlo => ?_, fun a ha => ?_, rfl⟩⟩
  · have hstore : flagReg ∉ [x] := by simpa using hx.symm
    exact ⟨takesRecord_memGuard hstore rfl (Nat.succ_pos _) hlo (.inl rfl),
      takesRecord_memGuard hstore rfl (by decide) hlo (.inl rfl)⟩
  · exact ⟨_, step_fetchFault (State.stuck_none_iff.mpr ⟨hl, hf⟩) (fetchFault_of_guard hlo), rfl⟩
  · rw [State.read_placeFont hwf hfont, dif_pos (by omega)]
    simp
  · rw [State.read_placeFont hwf hfont, dif_neg (by omega)]

/-! ### The writers of memory (spec/20_memory.md R40, R41) -/

@[simp] theorem pollRetry_mem (keys : Word) (x : Reg) (p : State) : (pollRetry keys x p).mem = p.mem := by
  unfold pollRetry
  split <;> rfl

/-- A rule that completes leaves memory, or is that of one of the two stores. -/
theorem ruleOf_mem {i : Instr} {p t : State} (h : ruleOf i p = .ok t) :
    t.mem = p.mem ∨ (∃ x, i = .ldBV x) ∨ ∃ x, i = .ldMIV x := by
  cases i with
  | ldBV x => exact .inr (.inl ⟨x, rfl⟩)
  | ldMIV x => exact .inr (.inr ⟨x, rfl⟩)
  | drw x y n | ldVMI x =>
    simp only [ruleOf] at h
    obtain ⟨-, rfl⟩ := withAccess_eq_ok h
    left; simp
  | ret | call nnn | ldFV x | ldVKey x =>
    simp only [ruleOf] at h
    split at h <;> cases h <;> left <;> simp
  | _ => cases h; left; simp

/-- No instruction writes outside program space. -/
theorem Effect.read_outside_program {i : Instr} {p t : State} (h : Effect i p t) (hp : p.mem.wf = true) {a : Nat}
    (ha : a < 0x200 ∨ 0x1000 ≤ a) : t.mem.read a = p.mem.read a := by
  obtain hm | ⟨bs, hlo, hhi, hm⟩ := h.mem
  · rw [hm]
  · rw [hm, Memory.read_writeBytes hp hhi, dif_neg (by omega)]

/-- Settles O50: a completed instruction that is not a store leaves memory, and a store lies in program space. -/
theorem memoryIsWrittenByTwoInstructions : Obligations.MemoryIsWrittenByTwoInstructions := by
  unfold Obligations.MemoryIsWrittenByTwoInstructions
  intro i s t hwf h hf
  obtain ⟨-, hrule⟩ := exec_completes h hf
  have heff := exec_effect h hf
  exact ⟨by simpa using ruleOf_mem hrule, fun _ => heff.read_outside_program hwf⟩

/-! ### Self-modifying code (spec/20_memory.md R52) -/

/-- A block store inside program space completes and writes memory alone, besides the advance of `pc` (R144). -/
theorem exec_ldMIV_program {x : Reg} {s : State} (hx : flagReg ≠ x) (hlo : 0x200 ≤ s.index.toNat)
    (hhi : s.index.toNat + x.toNat ≤ 0xFFF) :
    exec (.ldMIV x) s =
      .next { s.advance with mem := s.mem.writeBytes s.index.toNat (s.regsFrom 0 (x.toNat + 1)) } := by
  have hok : s.advance.dataFault .write (x.toNat + 1) = none := accessFault_program hlo (Nat.succ_le_succ hhi)
  exact exec_ok (by simpa [testedRegs] using hx) (by simp [ruleOf, withAccess_ok hok])

/-- The `k`-th byte of a stored block reads `V[k]`. -/
theorem Memory.read_writeBytes_regsFrom {m : Memory} (s : State) {ea n k : Nat} (hwf : m.wf = true)
    (hend : ea + n ≤ 0x1000) (hk : k < n) :
    (m.writeBytes ea (s.regsFrom 0 n)).read (ea + k) = s.reg (BitVec.ofNat 4 k) := by
  rw [Memory.read_writeBytes hwf (by simpa using hend), dif_pos (by simpa using hk)]
  simp

/-- A fetch at the first byte of a stored block of two or more yields the word of `V[0]`, `V[1]`. -/
theorem fetchWord_of_stored {s t : State} {n : Nat} (hwf : s.mem.wf = true) (hend : s.index.toNat + n ≤ 0x1000)
    (hn : 2 ≤ n) (hpc : t.pc = s.index) (hmem : t.mem = s.mem.writeBytes s.index.toNat (s.regsFrom 0 n)) :
    t.fetchWord = s.reg 0#4 ++ s.reg 1#4 := by
  have hhigh : t.mem.read t.pc.toNat = s.reg 0#4 := by
    rw [hpc, hmem]
    exact Memory.read_writeBytes_regsFrom s hwf hend (k := 0) (by omega)
  have hlow : t.mem.read (t.pc.toNat + 1) = s.reg 1#4 := by
    rw [hpc, hmem]
    exact Memory.read_writeBytes_regsFrom s hwf hend (k := 1) (by omega)
  rw [State.fetchWord, hhigh, hlow, joinBytes]

/-- Settles O53: the fetch after the store passes, and its two bytes are `V[0]` and `V[1]`. -/
theorem storedCodeIsFetched : Obligations.StoredCodeIsFetched := by
  unfold Obligations.StoredCodeIsFetched
  intro x s t i hx hone hl hf hwf hlo hhi hpc hd h
  obtain rfl := Host.Outcome.next.inj ((exec_ldMIV_program hx.symm hlo hhi).symm.trans h)
  have hend : s.index.toNat + (x.toNat + 1) ≤ 0x1000 := Nat.succ_le_succ hhi
  have hfetch : accessFault s.cfg .fetch s.index.toNat 2 = none :=
    accessFault_program hlo (le_trans (by omega) hend)
  refine step_decoded (State.stuck_none_iff.mpr ⟨hl, hf⟩) (hpc ▸ hfetch) ?_
  rw [fetchWord_of_stored hwf hend (Nat.succ_le_succ hone) hpc rfl]
  exact hd

end Sys2Proof.Machine

/-! ## Encoding (spec/30_encoding.md): every word is packed from its fields, and the decoder family by family -/

namespace Sys2Proof

/-! ### A word and its fields (R61, R62) -/

theorem packNNN_fields (w : Word) : packNNN (fieldOp w) (fieldNNN w) = w :=
  (BitVec.extractLsb'_append_extractLsb'_eq_extractLsb' rfl).trans BitVec.extractLsb'_eq_self

/-- The two fields of the high byte. -/
theorem fieldOp_append_fieldX (w : Word) : fieldOp w ++ fieldX w = w.extractLsb' 8 8 :=
  BitVec.extractLsb'_append_extractLsb'_eq_extractLsb' rfl

theorem packXKK_fields (w : Word) : packXKK (fieldOp w) (fieldX w) (fieldKK w) = w := by
  rw [packXKK, fieldOp_append_fieldX]
  exact joinBytes_extract w

theorem packXYN_fields (w : Word) : packXYN (fieldOp w) (fieldX w) (fieldY w) (fieldN w) = w := by
  have hopxy : w.extractLsb' 8 8 ++ fieldY w = w.extractLsb' 4 12 :=
    BitVec.extractLsb'_append_extractLsb'_eq_extractLsb' rfl
  rw [packXYN, fieldOp_append_fieldX, hopxy]
  exact (BitVec.extractLsb'_append_extractLsb'_eq_extractLsb' rfl).trans BitVec.extractLsb'_eq_self

section FixedFields

variable {w : Word} {op : Nibble} (hop : (fieldOp w).toNat = op.toNat)

include hop

/-- A word of format `NNN` is packed from its family and its address. -/
theorem packNNN_of_fieldOp : packNNN op (fieldNNN w) = w := by
  rw [← BitVec.eq_of_toNat_eq hop, packNNN_fields]

theorem packXKK_of_fieldOp : packXKK op (fieldX w) (fieldKK w) = w := by
  rw [← BitVec.eq_of_toNat_eq hop, packXKK_fields]

theorem packXYN_of_fieldOp : packXYN op (fieldX w) (fieldY w) (fieldN w) = w := by
  rw [← BitVec.eq_of_toNat_eq hop, packXYN_fields]

/-- A word of format `XS` is packed from its register, with its low byte fixed by the row. -/
theorem packXKK_of_fieldKK {s : Byte} (hs : (fieldKK w).toNat = s.toNat) : packXKK op (fieldX w) s = w := by
  rw [← BitVec.eq_of_toNat_eq hs, packXKK_of_fieldOp hop]

/-- A word of format `XYS` is packed from its registers, with its lowest nibble fixed by the row. -/
theorem packXYN_of_fieldN {s : Nibble} (hs : (fieldN w).toNat = s.toNat) :
    packXYN op (fieldX w) (fieldY w) s = w := by
  rw [← BitVec.eq_of_toNat_eq hs, packXYN_of_fieldOp hop]

end FixedFields

theorem fieldOp_toNat (w : Word) : (fieldOp w).toNat = w.toNat / 0x1000 := by
  have := w.isLt
  simp [fieldOp]
  omega

theorem fieldN_toNat (w : Word) : (fieldN w).toNat = w.toNat % 0x10 := by simp [fieldN]

theorem fieldKK_toNat (w : Word) : (fieldKK w).toNat = w.toNat % 0x100 := by simp [fieldKK]

theorem packNNN_inj {op : Nibble} {a b : Addr12} : packNNN op a = packNNN op b ↔ a = b :=
  ⟨fun h => by simpa using congrArg fieldNNN h, congrArg _⟩

/-- The word of a well-formed SYS is neither of the two fixed words (R66). -/
theorem wellFormed_sys_iff {a : Addr12} :
    (Instr.sys a).wellFormed = true ↔ packNNN 0#4 a ≠ 0x00E0#16 ∧ packNNN 0#4 a ≠ 0x00EE#16 := by
  have hcls : packNNN 0#4 a = 0x00E0#16 ↔ a = 0x0E0#12 := packNNN_inj (b := 0x0E0#12)
  have hret : packNNN 0#4 a = 0x00EE#16 ↔ a = 0x0EE#12 := packNNN_inj (b := 0x0EE#12)
  simp [Instr.wellFormed, hcls, hret]

/-! ### The decoder on an encoded instruction -/

theorem decodeFamily0_of_ne {w : Word} (hcls : w ≠ 0x00E0#16) (hret : w ≠ 0x00EE#16) :
    decodeFamily0 w = .sys (fieldNNN w) := by
  rw [decodeFamily0, if_neg hcls, if_neg hret]

/-- Outside family 0 the fields of a packed word select its row; in family 0 a well-formed SYS is neither of the two
fixed words. -/
theorem decodeWord_encode {i : Instr} (hi : i.wellFormed = true) : decodeWord (encode i) = .ok i := by
  cases i with
  | cls | ret => rfl
  | sys a =>
    obtain ⟨hcls, hret⟩ := wellFormed_sys_iff.mp hi
    simp [encode, decodeWord, decodeFamily0_of_ne hcls hret]
  | jp a | call a | ldI a | jpV0 a => simp [encode, decodeWord]
  | seVK x kk | sneVK x kk | ldVK x kk | addVK x kk | rnd x kk => simp [encode, decodeWord]
  | seVV x y n | sneVV x y n | drw x y n => simp [encode, decodeWord]
  | ldVV x y | or x y | and x y | xor x y | addVV x y | sub x y | shr x y | subn x y | shl x y =>
    simp [encode, decodeWord, decodeFamily8]
  | skp x | sknp x => simp [encode, decodeWord, decodeFamilyE]
  | ldVDT x | ldVKey x | ldDTV x | ldSTV x | addIV x | ldFV x | ldBV x | ldMIV x | ldVMI x =>
    simp [encode, decodeWord, decodeFamilyF]

/-- Settles O1: the word decodes to its instruction, and so do its two bytes in front of any others. -/
theorem encodedInstructionDecodesBack : Obligations.EncodedInstructionDecodesBack := by
  unfold Obligations.EncodedInstructionDecodesBack
  intro i rest hi
  exact ⟨decodeWord_encode hi, decode_wordBytes (decodeWord_encode hi) rest⟩

/-! ### The encoder on a decoded word -/

theorem encode_decodeFamily0 {w : Word} (hop : (fieldOp w).toNat = 0x0) :
    encode (decodeFamily0 w) = w ∧ (decodeFamily0 w).wellFormed = true := by
  by_cases hcls : w = 0x00E0#16
  · subst hcls
    decide
  by_cases hret : w = 0x00EE#16
  · subst hret
    decide
  have hw : packNNN 0#4 (fieldNNN w) = w := packNNN_of_fieldOp hop
  rw [decodeFamily0_of_ne hcls hret]
  exact ⟨hw, wellFormed_sys_iff.mpr (by rw [hw]; exact ⟨hcls, hret⟩)⟩

theorem encode_of_decodeFamily8 {w : Word} {i : Instr} (hop : (fieldOp w).toNat = 0x8)
    (h : decodeFamily8 w = .ok i) : encode i = w ∧ i.wellFormed = true := by
  unfold decodeFamily8 at h
  split at h <;> cases h
  all_goals
    rename_i hs
    exact ⟨packXYN_of_fieldN hop hs, rfl⟩

theorem encode_of_decodeFamilyE {w : Word} {i : Instr} (hop : (fieldOp w).toNat = 0xE)
    (h : decodeFamilyE w = .ok i) : encode i = w ∧ i.wellFormed = true := by
  unfold decodeFamilyE at h
  split at h <;> cases h
  all_goals
    rename_i hs
    exact ⟨packXKK_of_fieldKK hop hs, rfl⟩

theorem encode_of_decodeFamilyF {w : Word} {i : Instr} (hop : (fieldOp w).toNat = 0xF)
    (h : decodeFamilyF w = .ok i) : encode i = w ∧ i.wellFormed = true := by
  unfold decodeFamilyF at h
  split at h <;> cases h
  all_goals
    rename_i hs
    exact ⟨packXKK_of_fieldKK hop hs, rfl⟩

/-- Settles O2, family by family: arm `h_k` of the dispatch is the one of the high nibble `k - 1`. -/
theorem decodedWordEncodesBack : Obligations.DecodedWordEncodesBack := by
  unfold Obligations.DecodedWordEncodesBack
  intro w i h
  unfold decodeWord at h
  split at h
  case h_1 hop => cases h; exact encode_decodeFamily0 hop
  case h_9 hop => exact encode_of_decodeFamily8 hop h
  case h_15 hop => exact encode_of_decodeFamilyE hop h
  case h_16 hop => exact encode_of_decodeFamilyF hop h
  case h_17 => cases h
  case h_2 hop | h_3 hop | h_11 hop | h_12 hop => cases h; exact ⟨packNNN_of_fieldOp hop, rfl⟩
  case h_4 hop | h_5 hop | h_7 hop | h_8 hop | h_13 hop => cases h; exact ⟨packXKK_of_fieldOp hop, rfl⟩
  case h_6 hop | h_10 hop | h_14 hop => cases h; exact ⟨packXYN_of_fieldOp hop, rfl⟩

/-! ### The illegal words (R69) -/

theorem decodeFamily8_illegal_iff (w : Word) : decodeFamily8 w = .error (.illegalInstruction w) ↔
    (fieldN w).toNat ∈ [0x8, 0x9, 0xA, 0xB, 0xC, 0xD, 0xF] := by
  have hlt := (fieldN w).isLt
  unfold decodeFamily8
  split
  case h_10 =>
    simp only [imp_false, List.mem_cons, List.not_mem_nil, true_iff] at *
    omega
  all_goals simp_all

theorem decodeFamilyE_illegal_iff (w : Word) : decodeFamilyE w = .error (.illegalInstruction w) ↔
    (fieldKK w).toNat ∉ [0x9E, 0xA1] := by
  unfold decodeFamilyE
  split <;> simp_all

theorem decodeFamilyF_illegal_iff (w : Word) : decodeFamilyF w = .error (.illegalInstruction w) ↔
    (fieldKK w).toNat ∉ [0x07, 0x0A, 0x15, 0x18, 0x1E, 0x29, 0x33, 0x55, 0x65] := by
  unfold decodeFamilyF
  split <;> simp_all

/-- Only three families refuse a word. -/
theorem decodeWord_illegal_iff (w : Word) : decodeWord w = .error (.illegalInstruction w) ↔
    ((fieldOp w).toNat = 0x8 ∧ decodeFamily8 w = .error (.illegalInstruction w)) ∨
    ((fieldOp w).toNat = 0xE ∧ decodeFamilyE w = .error (.illegalInstruction w)) ∨
    ((fieldOp w).toNat = 0xF ∧ decodeFamilyF w = .error (.illegalInstruction w)) := by
  have hlt := (fieldOp w).isLt
  unfold decodeWord
  split
  case h_17 =>
    simp only [imp_false] at *
    omega
  all_goals simp_all

/-- Settles O3: the refusing families one by one, their fields read as digits of the word. -/
theorem illegalWordsAreExactlyThese : Obligations.IllegalWordsAreExactlyThese := by
  unfold Obligations.IllegalWordsAreExactlyThese
  intro w
  rw [decodeWord_illegal_iff, decodeFamily8_illegal_iff, decodeFamilyE_illegal_iff, decodeFamilyF_illegal_iff,
    fieldOp_toNat, fieldN_toNat, fieldKK_toNat]

/-! ### Family 0 and words of the table -/

/-- A word below 0x1000 is of family 0, which never refuses (R66). -/
theorem decodeWord_family0 {w : Word} (hw : w.toNat < 0x1000) : decodeWord w = .ok (decodeFamily0 w) := by
  have hop : (fieldOp w).toNat = 0x0 := by
    rw [fieldOp_toNat]
    omega
  simp only [decodeWord, hop]

/-- SYS advances `pc` and does nothing else (R100). -/
theorem Machine.exec_sys (a : Addr12) (s : Machine.State) : Machine.exec (.sys a) s = .next s.advance :=
  Machine.exec_ok (by simp [Machine.testedRegs]) rfl

/-- Settles O4: the two fixed words by evaluation, the others by the last arm of family 0. -/
theorem familyZeroIsClsRetOrNothing : Obligations.FamilyZeroIsClsRetOrNothing := by
  unfold Obligations.FamilyZeroIsClsRetOrNothing
  refine ⟨rfl, rfl, fun w hw hcls hret => ?_, Machine.exec_sys⟩
  have hnnn : fieldNNN w = BitVec.ofNat 12 w.toNat := rfl
  rw [decodeWord_family0 hw, decodeFamily0_of_ne hcls hret, hnnn]

/-- Settles O5: nine closed words, by evaluation of the decoder. -/
theorem tableWordsDecode : Obligations.TableWordsDecode := by
  unfold Obligations.TableWordsDecode
  decide

end Sys2Proof

/-! ## The step cycle (spec/40_step_cycle.md): when a step is enabled, its fetch, and what it writes -/

namespace Sys2Proof.Machine

/-! ### When a step is enabled (R80) -/

theorem stuck_of_not_loaded {s : State} (hl : s.loaded = false) : s.stuck = some .notLoaded := by
  simp [State.stuck, hl]

theorem stuck_of_fault {s : State} (hl : s.loaded = true) (hf : s.fault.cause ≠ .none) : s.stuck = some .halted := by
  simp [State.stuck, hl, hf]

theorem step_of_stuck {s : State} {f : Fault} (h : s.stuck = some f) : step s = .fault f := by
  simp only [step, h]

/-- Every instruction answers a next state in every state: its faults are taken (R87). -/
theorem exec_next (i : Instr) (s : State) : ∃ t, exec i s = .next t :=
  exec_eq_perform i s ▸ perform_next i s (ruleOf i)

/-- An enabled step answers a next state, whether its fetch, its decoding or its instruction faults or not. -/
theorem step_next {s : State} (hs : s.stuck = none) : ∃ t, step s = .next t := by
  cases hfetch : s.fetchFault with
  | some e => exact ⟨_, step_fetchFault hs hfetch⟩
  | none =>
    cases hd : decodeWord s.fetchWord with
    | error err => exact ⟨_, step_illegal hs hfetch hd⟩
    | ok i => exact step_decoded hs hfetch hd ▸ exec_next i s

/-- Settles O7: the two stuck states are told apart by `loaded`, and every other path of a step answers a next state. -/
theorem stepIsStuckExactlyWhenNotEnabled : Obligations.StepIsStuckExactlyWhenNotEnabled := by
  unfold Obligations.StepIsStuckExactlyWhenNotEnabled
  exact ⟨fun s hl => step_of_stuck (stuck_of_not_loaded hl), fun s hl hf => step_of_stuck (stuck_of_fault hl hf),
    fun s hl hf => step_next (State.stuck_none_iff.mpr ⟨hl, hf⟩), exec_next, fun bytes s hl => if_pos hl⟩

/-! ### The fetch (R81) -/

/-- The fetch passes exactly from 0x200 to 0xFFE. -/
theorem fetchFault_none_iff {s : State} : s.fetchFault = none ↔ 0x200 ≤ s.pc.toNat ∧ s.pc.toNat ≤ 0xFFE := by
  constructor
  · intro h
    have := fetchFault_none_bounds h
    omega
  · rintro ⟨hlo, hhi⟩
    exact accessFault_program hlo (Nat.add_le_add_right hhi 2)

/-- A fetch that reaches beyond the address space fails at its first byte from 0x1000 up. -/
theorem fetchFault_of_above {s : State} (h : 0xFFF ≤ s.pc.toNat) :
    s.fetchFault = some { cause := .memRange, addr := max s.pc.toNat 0x1000 } := by
  have haddr : s.pc.toNat + (max s.pc.toNat 0x1000 - s.pc.toNat) = max s.pc.toNat 0x1000 := by omega
  have hfail := addressFault_of_not_accessible
    (not_accessible_of_above (s := s) (kind := .fetch) (Nat.le_max_right s.pc.toNat 0x1000))
  rw [if_neg (by omega), ← haddr] at hfail
  rw [← haddr]
  have hbefore (j : Nat) (hj : j < max s.pc.toNat 0x1000 - s.pc.toNat) : accessible s .fetch (s.pc.toNat + j) :=
    accessible_of_program (by omega) (by omega)
  exact accessFault_of_first (by omega) (fun j hj => addressFault_none_iff_accessible.mpr (hbefore j hj)) hfail

/-- Settles O8: below program space the fetch fails at `pc`, and past its last word at the first byte from 0x1000 up. -/
theorem fetchOutsideProgramSpaceFaults : Obligations.FetchOutsideProgramSpaceFaults := by
  unfold Obligations.FetchOutsideProgramSpaceFaults
  intro s hl hf
  have hs := State.stuck_none_iff.mpr ⟨hl, hf⟩
  refine ⟨fun hlo => ⟨_, step_fetchFault hs (fetchFault_of_guard hlo), rfl⟩, fun hlast => ?_, fun hhi => ?_⟩
  · refine ⟨_, step_fetchFault hs (fetchFault_of_above hlast.ge), ?_⟩
    simp [hlast]
  · refine ⟨_, step_fetchFault hs (fetchFault_of_above (by omega)), ?_⟩
    simp [hhi]

/-! ### A fetch that passes: the decoded instruction or the illegal word (R83, R89) -/

/-- Settles O6: the step is enabled, its fetch passes and its word decodes. -/
theorem stepRunsTheDecodedInstruction : Obligations.StepRunsTheDecodedInstruction := by
  unfold Obligations.StepRunsTheDecodedInstruction
  intro s i hl hf hlo hhi hd
  exact step_decoded (State.stuck_none_iff.mpr ⟨hl, hf⟩) (fetchFault_none_iff.mpr ⟨hlo, hhi⟩) hd

/-- Settles O9: the step is enabled, its fetch passes and its word is refused. -/
theorem illegalWordFaults : Obligations.IllegalWordFaults := by
  unfold Obligations.IllegalWordFaults
  intro s e hl hf hlo hhi hd
  exact ⟨_, step_illegal (State.stuck_none_iff.mpr ⟨hl, hf⟩) (fetchFault_none_iff.mpr ⟨hlo, hhi⟩) hd, rfl⟩

/-! ### Faults are precise (R87, spec/60_exceptions.md R209, R210) -/

/-- An instruction leaves the record as it was, or takes a fault on the state before it. -/
theorem exec_fault_cases {i : Instr} {s t : State} (h : exec i s = .next t) :
    t.fault = s.fault ∨ ∃ e : Trap, e.cause ≠ .none ∧ t = s.raise e (encode i) := by
  obtain ⟨-, ht⟩ | ⟨hi, hok⟩ | ⟨hi, e, he, ht⟩ := exec_cases h
  · exact .inr ⟨_, regIndexTrap_coherent.cause, ht⟩
  · exact .inl (ruleOf_effect hi hok).fault
  · exact .inr ⟨e, (ruleOf_error_coherent hi he).cause, ht⟩

/-- A step that leaves a fault has taken it on the state before it, with the fetched word, or 0 when there is none. -/
theorem step_faults {s t : State} (h : step s = .next t) (hf : t.fault.cause ≠ .none) :
    ∃ e ir, t = s.raise e ir ∧ (s.fetchFault = none → ir = s.fetchWord) ∧ (s.fetchFault ≠ none → ir = 0) := by
  obtain ⟨hstuck, ⟨e, he, ht⟩ | ⟨err, hn, -, ht⟩ | ⟨i, hn, hd, hexec⟩⟩ := step_cases h
  · exact ⟨e, 0, ht, fun hn => by simp [he] at hn, fun _ => rfl⟩
  · exact ⟨illegalTrap, s.fetchWord, ht, fun _ => rfl, absurd hn⟩
  · obtain hsame | ⟨e, -, ht⟩ := exec_fault_cases hexec
    · exact absurd (hsame ▸ (State.stuck_none_iff.mp hstuck).2) hf
    · exact ⟨e, encode i, ht, fun _ => (decodedWordEncodesBack _ _ hd).1, absurd hn⟩

/-- Settles O10: a step and an instruction fault by `raise` alone, and a decoded word is the word of its instruction. -/
theorem faultingStepWritesOnlyTheRecord : Obligations.FaultingStepWritesOnlyTheRecord := by
  unfold Obligations.FaultingStepWritesOnlyTheRecord
  refine ⟨fun s t h hf => ?_, fun i s t h => (exec_fault_cases h).imp_right ?_⟩
  · obtain ⟨e, ir, rfl, hword, hzero⟩ := step_faults h hf
    rw [← fetchFault_none_iff]
    exact ⟨rfl, rfl, hword, hzero, State.stepResult_fault hf⟩
  · rintro ⟨e, he, rfl⟩
    exact ⟨rfl, he, rfl, rfl⟩

/-! ### The register-index check (R85) -/

/-- The check comes before the instruction's own rule. -/
theorem takesRecord_regIndex {i : Instr} (s : State) (h : flagReg ∈ testedRegs i) : takesRecord i s .regIndex 0 :=
  ⟨_, (exec_eq_perform i s).trans (perform_regIndex h), rfl⟩

theorem takesFault_of_takesRecord {i : Instr} {s : State} {c : Cause} {a : Nat} (h : takesRecord i s c a) :
    takesFault i s c :=
  h.imp fun _ ⟨hexec, hrec⟩ => ⟨hexec, congrArg FaultRecord.cause hrec⟩

/-- Settles O11: the check faults before any rule runs; the rows of the table of R85 are those of `testedRegs`. -/
theorem registerFifteenFaultsFirst : Obligations.RegisterFifteenFaultsFirst := by
  unfold Obligations.RegisterFifteenFaultsFirst
  refine ⟨fun i s => takesRecord_regIndex s, fun _ => ?none, fun _ _ => ?immediate, fun _ => ?single, fun _ _ => ?pair,
    fun _ _ _ => ?pairNibble, fun kk s => ?faults⟩
  case none | immediate | single | pair | pairNibble => simp only [testedRegs, and_self]
  case faults =>
    have of_mem {i : Instr} (h : flagReg ∈ testedRegs i) := takesFault_of_takesRecord (takesRecord_regIndex s h)
    exact ⟨of_mem (List.mem_singleton_self _), of_mem (List.mem_singleton_self _), of_mem (List.mem_singleton_self _)⟩

/-! ### The registers an instruction writes (R86) -/

theorem State.setRegFlag_reg_other (p : State) {x r : Reg} (hflag : flagReg ≠ r) (hx : x ≠ r) (b c : Byte) :
    (p.setRegFlag x b c).reg r = p.reg r :=
  (State.reg_setReg_other _ hx b).trans (State.reg_setReg_other p hflag c)

@[simp] theorem State.skipIf_reg (p : State) (c : Bool) (r : Reg) : (p.skipIf c).reg r = p.reg r := by
  simp only [State.reg, State.skipIf_v]

theorem pollRetry_reg_other (keys : Word) {x r : Reg} (hx : x ≠ r) (p : State) :
    (pollRetry keys x p).reg r = p.reg r := by
  unfold pollRetry
  split
  · rfl
  · exact State.reg_setReg_other p.sampled hx _

/-- A block load leaves every register above its last. -/
theorem State.reg_setRegsFrom_above (p : State) {bs : List Byte} {r : Reg} (h : bs.length ≤ r.toNat) :
    (p.setRegsFrom 0 bs).reg r = p.reg r := by
  have := r.isLt
  rw [State.reg_setRegsFrom _ _ _ _ (by omega), dif_neg (by omega)]

/-- A rule that completes leaves every register but the flag, its first field and those of a block load. -/
theorem ruleOf_reg {i : Instr} {p t : State} (h : ruleOf i p = .ok t) {r : Reg} (hflag : flagReg ≠ r)
    (hfirst : r ∉ (testedRegs i).take 1) (hblock : ∀ x, i = .ldVMI x → x.toNat < r.toNat) : t.reg r = p.reg r := by
  have first_ne {x : Reg} (hx : (testedRegs i).take 1 = [x]) : x ≠ r := fun hxr => hfirst (by simp [hx, hxr])
  cases i with
  | ldVK x | addVK x | ldVV x | or x | and x | xor x | ldVDT x =>
    cases h; exact State.reg_setReg_other p (first_ne rfl) _
  | rnd x kk => cases h; exact State.reg_setReg_other p.drawn (first_ne rfl) _
  | addVV x | sub x | shr x | subn x | shl x => cases h; exact p.setRegFlag_reg_other hflag (first_ne rfl) _ _
  | seVK | sneVK | seVV | sneVV | skp | sknp => cases h; exact State.skipIf_reg _ _ r
  | ldVKey x =>
    simp only [ruleOf] at h
    split at h <;> cases h
    · exact State.reg_setReg_other p (first_ne rfl) 0
    · exact pollRetry_reg_other _ (first_ne rfl) p
  | drw =>
    simp only [ruleOf] at h
    obtain ⟨-, rfl⟩ := withAccess_eq_ok h
    exact State.reg_setReg_other p hflag _
  | ldVMI x =>
    simp only [ruleOf] at h
    obtain ⟨-, rfl⟩ := withAccess_eq_ok h
    exact p.reg_setRegsFrom_above (by rw [Memory.readBytes_length]; exact hblock x rfl)
  | ldBV | ldMIV =>
    simp only [ruleOf] at h
    obtain ⟨-, rfl⟩ := withAccess_eq_ok h
    rfl
  | ret | call | ldFV => simp only [ruleOf] at h; split at h <;> cases h; rfl
  | _ => cases h; rfl

/-- Settles O51: no effect writes a lifecycle field, and the rules of a completed instruction write the named
registers. -/
theorem unnamedRegistersAreUnchanged : Obligations.UnnamedRegistersAreUnchanged := by
  unfold Obligations.UnnamedRegistersAreUnchanged
  intro i s t h hf
  have heff := exec_effect h hf
  obtain ⟨-, hrule⟩ := exec_completes h hf
  exact ⟨heff.loaded, heff.romLen, heff.cfg, fun r hflag hfirst hblock => ruleOf_reg hrule hflag.symm hfirst hblock⟩

end Sys2Proof.Machine

/-! ## Control transfer (spec/41_control_flow.md) -/

namespace Sys2Proof.Machine

/-! ### Jumps (R102, R108) -/

/-- The zero extension of a target, as the obligations write it. -/
theorem addrToWord_eq_ofNat (a : Addr12) : addrToWord a = BitVec.ofNat 16 a.toNat := (BitVec.ofNat_toNat 16 a).symm

/-- The target of `JP V0` is the integer sum: it fits in 16 bits (R108). -/
theorem addrToWord_add_byteToWord_toNat (a : Addr12) (b : Byte) :
    (addrToWord a + byteToWord b).toNat = a.toNat + b.toNat := by
  have ha := a.isLt
  have hb := b.isLt
  have hext : (byteToWord b).toNat = b.toNat := BitVec.toNat_setWidth_of_le (by decide)
  rw [BitVec.toNat_add_of_lt (by rw [addrToWord_toNat, hext]; omega), addrToWord_toNat, hext]

/-- Settles O13: no register field is tested and the rule always completes. -/
theorem jumpLoadsPc : Obligations.JumpLoadsPc := by
  unfold Obligations.JumpLoadsPc
  intro nnn s
  rw [← addrToWord_eq_ofNat]
  exact exec_ok List.not_mem_nil rfl

/-- Settles O18: the rule always completes, and its sum does not wrap. -/
theorem jumpV0AddsRegisterZero : Obligations.JumpV0AddsRegisterZero := by
  unfold Obligations.JumpV0AddsRegisterZero
  exact fun nnn s => ⟨_, exec_ok List.not_mem_nil rfl, addrToWord_add_byteToWord_toNat nnn (s.reg 0), rfl⟩

/-! ### Call and return (R101, R103) -/

/-- A call that fits on the stack, with all it writes. -/
theorem exec_call_pushes (a : Addr12) {s : State} (h : s.sp.val + 1 < 16) :
    exec (.call a) s = .next
      { s with stack := s.stack.set (s.sp.val + 1) (s.pc + 2) h, sp := ⟨s.sp.val + 1, h⟩, pc := addrToWord a } :=
  exec_ok (flagReg_not_mem_testedRegs_call a) (dif_neg (Nat.not_lt.mpr (Nat.le_of_lt_succ h)))

/-- A return from a stack that is not empty, with all it writes. -/
theorem exec_ret_pops {s : State} (h : 0 < s.sp.val) :
    exec .ret s = .next { s with pc := s.stack[s.sp.val], sp := s.sp - 1 } :=
  exec_ok List.not_mem_nil (if_neg h.ne')

theorem exec_ret_underflow {s : State} (h : s.sp.val = 0) : takesRecord .ret s .stackUnderflow 0 :=
  ⟨_, exec_trap List.not_mem_nil (if_pos h), rfl⟩

/-- Above the empty stack the decrement of `sp` does not wrap. -/
theorem sp_sub_one_val {p : Fin 16} (h : 0 < p.val) : (p - 1).val = p.val - 1 :=
  Fin.val_sub_one_of_ne_zero (Fin.pos_iff_ne_zero.mp h)

/-- Settles O14: the call fits on the stack exactly below 15. -/
theorem callPushesTheReturnAddress : Obligations.CallPushesTheReturnAddress := by
  unfold Obligations.CallPushesTheReturnAddress
  refine ⟨fun nnn s h => ?_, fun nnn s h => exec_call_overflow nnn (by omega)⟩
  rw [← addrToWord_eq_ofNat]
  exact exec_call_pushes nnn h

/-- Settles O15: the guard of the empty stack, and the decrement above it. -/
theorem returnPopsTheReturnAddress : Obligations.ReturnPopsTheReturnAddress := by
  unfold Obligations.ReturnPopsTheReturnAddress
  exact ⟨fun s h => ⟨_, exec_ret_pops h, rfl, sp_sub_one_val h, rfl⟩, fun s h => exec_ret_underflow h⟩

/-- Settles O19: the return reads the slot the call wrote, which lies above every live slot. -/
theorem callThenReturnComesBack : Obligations.CallThenReturnComesBack := by
  unfold Obligations.CallThenReturnComesBack
  intro nnn s h
  have hroom : s.sp.val + 1 < 16 := Nat.succ_lt_succ h
  refine ⟨_, _, exec_call_pushes nnn hroom, exec_ret_pops (Nat.succ_pos _), ?pc, ?sp, fun k hk hle => ?live⟩
  case pc => exact Vector.getElem_set_self hroom
  case sp => exact Fin.ext (sp_sub_one_val (Nat.succ_pos _))
  case live => exact Vector.getElem_set_ne hroom hk (by omega)

/-! ### Skips (R104 to R107, R109) -/

/-- A taken skip leaves `pc` four above the instruction, one not taken leaves it two above. -/
theorem State.advance_skipIf (s : State) (c : Bool) :
    s.advance.skipIf c = { s with pc := if c then s.pc + 4 else s.pc + 2 } := by
  cases c with
  | false => rfl
  | true =>
    have hpc : s.pc + 2 + 2 = s.pc + 4 := BitVec.add_assoc s.pc 2 2
    change { s with pc := s.pc + 2 + 2 } = { s with pc := s.pc + 4 }
    rw [hpc]

/-- An instruction whose rule is a skip on equal bytes. -/
theorem exec_skip_eq {i : Instr} {s : State} {a b : Byte} (hi : flagReg ∉ testedRegs i)
    (hr : ruleOf i s.advance = .ok (s.advance.skipIf (a == b))) :
    exec i s = .next { s with pc := if a = b then s.pc + 4 else s.pc + 2 } := by
  rw [exec_ok hi hr, State.advance_skipIf]
  simp only [beq_iff_eq]

/-- An instruction whose rule is a skip on different bytes. -/
theorem exec_skip_ne {i : Instr} {s : State} {a b : Byte} (hi : flagReg ∉ testedRegs i)
    (hr : ruleOf i s.advance = .ok (s.advance.skipIf (a != b))) :
    exec i s = .next { s with pc := if a = b then s.pc + 2 else s.pc + 4 } := by
  rw [exec_ok hi hr, State.advance_skipIf]
  simp only [bne_iff_ne, ite_not]

theorem takesFault_regIndex {i : Instr} (s : State) (h : flagReg ∈ testedRegs i) : takesFault i s .regIndex :=
  takesFault_of_takesRecord (takesRecord_regIndex s h)

/-- Settles O16: both rules are skips on the register and the immediate. -/
theorem skipsComparingAnImmediate : Obligations.SkipsComparingAnImmediate := by
  unfold Obligations.SkipsComparingAnImmediate
  refine ⟨fun x kk s hx => ?_, fun kk s => ?_⟩
  · have hfields : flagReg ∉ [x] := mt List.mem_singleton.mp hx.symm
    exact ⟨exec_skip_eq hfields rfl, exec_skip_ne hfields rfl⟩
  · have hfield : flagReg ∈ [15#4] := List.mem_singleton_self _
    exact ⟨takesFault_regIndex s hfield, takesFault_regIndex s hfield⟩

/-- Settles O17: both rules are skips on the two registers, and neither reads the low nibble. -/
theorem skipsComparingRegisters : Obligations.SkipsComparingRegisters := by
  unfold Obligations.SkipsComparingRegisters
  refine ⟨fun x y n s hx hy => ?_, fun x y n s hxy => ?_⟩
  · have hfields : flagReg ∉ [x, y] := by simp [hx.symm, hy.symm]
    exact ⟨exec_skip_eq hfields rfl, exec_skip_ne hfields rfl⟩
  · have hfield : flagReg ∈ [x, y] := by simpa [eq_comm] using hxy
    exact ⟨takesFault_regIndex s hfield, takesFault_regIndex s hfield⟩

end Sys2Proof.Machine

/-! ## Register loads, arithmetic and logic (spec/42_alu.md) -/

namespace Sys2Proof.Machine

/-! ### The register fields of an instruction on two registers (spec/40_step_cycle.md R85) -/

theorem flagReg_not_mem_single {x : Reg} (hx : x ≠ 15#4) : flagReg ∉ [x] := mt List.mem_singleton.mp hx.symm

theorem flagReg_not_mem_pair {x y : Reg} (hx : x ≠ 15#4) (hy : y ≠ 15#4) : flagReg ∉ [x, y] := by
  simp [hx.symm, hy.symm]

theorem flagReg_mem_pair {x y : Reg} (h : x = 15#4 ∨ y = 15#4) : flagReg ∈ [x, y] := by simpa [eq_comm] using h

/-! ### The instructions that write `V[x]` alone (R121 to R126) -/

/-- An instruction whose rule writes one register: that write and the advanced `pc` are all it does. -/
theorem exec_setReg {i : Instr} {s : State} {x : Reg} {b : Byte} (hi : flagReg ∉ testedRegs i)
    (hr : ruleOf i s.advance = .ok (s.advance.setReg x b)) :
    exec i s = .next { s.setReg x b with pc := s.pc + 2 } :=
  exec_ok hi hr

/-- Settles O21: both rules write one register. -/
theorem immediateLoadAndAdd : Obligations.ImmediateLoadAndAdd := by
  unfold Obligations.ImmediateLoadAndAdd
  refine ⟨fun x kk s hx => ?_, fun kk s => ?_⟩
  · have hfields := flagReg_not_mem_single hx
    rw [← BitVec.add_def]
    exact ⟨exec_setReg hfields rfl, exec_setReg hfields rfl⟩
  · have hfield : flagReg ∈ [15#4] := List.mem_singleton_self _
    exact ⟨takesFault_regIndex s hfield, takesFault_regIndex s hfield⟩

/-- Settles O22: the four rules write one register. -/
theorem copyAndLogicWriteNoFlag : Obligations.CopyAndLogicWriteNoFlag := by
  unfold Obligations.CopyAndLogicWriteNoFlag
  refine ⟨fun x y s hx hy => ?_, fun x y s hxy => ?_⟩
  · have hfields := flagReg_not_mem_pair hx hy
    exact ⟨exec_setReg hfields rfl, exec_setReg hfields rfl, exec_setReg hfields rfl, exec_setReg hfields rfl⟩
  · have hfield := flagReg_mem_pair hxy
    exact ⟨takesFault_regIndex s hfield, takesFault_regIndex s hfield, takesFault_regIndex s hfield,
      takesFault_regIndex s hfield⟩

/-! ### The flag an instruction computes (spec/10_state.md R12) -/

theorem flagByte_decide (p : Prop) [Decidable p] : flagByte (decide p) = if p then 1 else 0 := by
  simp only [flagByte, decide_eq_true_eq]

theorem carryFlag_eq (a b : Byte) : carryFlag a b = if a.toNat + b.toNat > 255 then 1 else 0 := flagByte_decide _

theorem greaterFlag_eq (a b : Byte) : greaterFlag a b = if a.toNat > b.toNat then 1 else 0 := flagByte_decide _

/-- The flag register holds the bit as a number. -/
theorem flagByte_toNat (c : Bool) : (flagByte c).toNat = c.toNat := by cases c <;> rfl

theorem lowBitFlag_toNat (a : Byte) : (lowBitFlag a).toNat = a.toNat % 2 := by
  rw [lowBitFlag, flagByte_toNat, BitVec.getLsbD, Nat.toNat_testBit, pow_zero, Nat.div_one]

theorem highBitFlag_toNat (a : Byte) : (highBitFlag a).toNat = a.toNat / 128 := by
  have := a.isLt
  rw [highBitFlag, flagByte_toNat, BitVec.getLsbD, Nat.toNat_testBit]
  omega

/-! ### The instructions that write `V[x]` and the flag (R127 to R131) -/

/-- An instruction whose rule writes a result and the flag: both are written, since the result's register is not the
flag's, and beside them only `pc` moves. -/
theorem exec_setRegFlag {i : Instr} {s : State} {x : Reg} {b c : Byte} (hi : flagReg ∉ testedRegs i) (hx : x ≠ 15#4)
    (hr : ruleOf i s.advance = .ok (s.advance.setRegFlag x b c)) :
    ∃ t, exec i s = .next t ∧ t.reg x = b ∧ t.reg 15#4 = c ∧ (∀ r : Reg, r ≠ x → r ≠ 15#4 → t.reg r = s.reg r) ∧
      t.pc = s.pc + 2 ∧ sameButRegs s t := by
  refine ⟨_, exec_ok hi hr, State.reg_setReg_same .., ?flag, fun r hrx hflag => ?other, rfl, rfl⟩
  case flag => exact (State.reg_setReg_other _ hx b).trans (State.reg_setReg_same ..)
  case other => exact s.advance.setRegFlag_reg_other hflag.symm hrx.symm b c

/-- Settles O23: the flag is the carry of the operands the rule reads. -/
theorem addSetsCarry : Obligations.AddSetsCarry := by
  unfold Obligations.AddSetsCarry
  refine ⟨fun x y s hx hy => ?_, fun x y s hxy => takesFault_regIndex s (flagReg_mem_pair hxy)⟩
  obtain ⟨t, hexec, hres, hflag, hframe⟩ := exec_setRegFlag (i := .addVV x y) (flagReg_not_mem_pair hx hy) hx rfl
  exact ⟨t, hexec, hres ▸ BitVec.toNat_add .., hflag.trans (carryFlag_eq ..), hframe⟩

/-- The model's subtraction, with the wrap in the order the obligations write it. -/
theorem byte_sub_toNat (a b : Byte) : (a - b).toNat = (a.toNat + 256 - b.toNat) % 256 := by
  have := b.isLt
  rw [BitVec.toNat_sub]
  omega

/-- An instruction whose rule writes a difference: SUB, and with the operands swapped SUBN. -/
theorem exec_difference {i : Instr} {s : State} {x : Reg} {a b : Byte} (hi : flagReg ∉ testedRegs i) (hx : x ≠ 15#4)
    (hr : ruleOf i s.advance = .ok (s.advance.setRegFlag x (a - b) (greaterFlag a b))) :
    ∃ t, exec i s = .next t ∧ (t.reg x).toNat = (a.toNat + 256 - b.toNat) % 256 ∧
      t.reg 15#4 = (if a.toNat > b.toNat then 1 else 0) ∧ (∀ r : Reg, r ≠ x → r ≠ 15#4 → t.reg r = s.reg r) ∧
      t.pc = s.pc + 2 ∧ sameButRegs s t := by
  obtain ⟨t, hexec, hres, hflag, hframe⟩ := exec_setRegFlag hi hx hr
  exact ⟨t, hexec, hres ▸ byte_sub_toNat a b, hflag.trans (greaterFlag_eq a b), hframe⟩

/-- Settles O24: the rule writes `V[x] - V[y]`. -/
theorem subSetsStrictlyGreater : Obligations.SubSetsStrictlyGreater := by
  unfold Obligations.SubSetsStrictlyGreater
  exact ⟨fun x y s hx hy => exec_difference (flagReg_not_mem_pair hx hy) hx rfl,
    fun x y s hxy => takesFault_regIndex s (flagReg_mem_pair hxy)⟩

/-- Settles O25: the rule writes `V[y] - V[x]`. -/
theorem subnSetsStrictlyGreater : Obligations.SubnSetsStrictlyGreater := by
  unfold Obligations.SubnSetsStrictlyGreater
  exact ⟨fun x y s hx hy => exec_difference (flagReg_not_mem_pair hx hy) hx rfl,
    fun x y s hxy => takesFault_regIndex s (flagReg_mem_pair hxy)⟩

/-! ### The shifts (R129, R131) -/

theorem byte_shiftRight_one_toNat (a : Byte) : (a >>> 1).toNat = a.toNat / 2 := by
  rw [BitVec.toNat_ushiftRight, Nat.shiftRight_eq_div_pow, pow_one]

theorem byte_shiftLeft_one_toNat (a : Byte) : (a <<< 1).toNat = 2 * a.toNat % 256 := by
  rw [BitVec.toNat_shiftLeft, Nat.shiftLeft_eq, pow_one, Nat.mul_comm]

/-- Settles O26: the flag is bit 0 or bit 7 of the byte that is shifted. -/
theorem shiftsMoveOneBitOut : Obligations.ShiftsMoveOneBitOut := by
  unfold Obligations.ShiftsMoveOneBitOut
  refine ⟨fun x y s hx hy => ?shr, fun x y s hx hy => ?shl, fun x y s hxy => ?faults⟩
  case shr =>
    obtain ⟨t, hexec, hres, hflag, hframe⟩ := exec_setRegFlag (i := .shr x y) (flagReg_not_mem_pair hx hy) hx rfl
    exact ⟨t, hexec, hres ▸ byte_shiftRight_one_toNat _, hflag ▸ lowBitFlag_toNat _, hframe⟩
  case shl =>
    obtain ⟨t, hexec, hres, hflag, hframe⟩ := exec_setRegFlag (i := .shl x y) (flagReg_not_mem_pair hx hy) hx rfl
    exact ⟨t, hexec, hres ▸ byte_shiftLeft_one_toNat _, hflag ▸ highBitFlag_toNat _, hframe⟩
  case faults =>
    have hfield := flagReg_mem_pair hxy
    exact ⟨takesFault_regIndex s hfield, takesFault_regIndex s hfield⟩

/-! ### The random byte (R132) -/

/-- `RND` with a given byte, with all it writes. -/
theorem rndWith_next (r : Byte) {x : Reg} (hx : x ≠ 15#4) (kk : Byte) (s : State) :
    rndWith r x kk s = .next { s.setReg x (r &&& kk) with pc := s.pc + 2, rndDraws := s.rndDraws + 1 } :=
  perform_ok (flagReg_not_mem_single hx) rfl

/-- `exec` supplies the next free byte. -/
theorem exec_rnd_eq_rndWith (x : Reg) (kk : Byte) (s : State) :
    exec (.rnd x kk) s = rndWith (Config.randomByte s.rndDraws) x kk s := rfl

/-- A masked byte has no bit that the mask lacks. -/
theorem byte_and_and_not (r kk : Byte) : (r &&& kk) &&& ~~~kk = 0 := by
  rw [BitVec.and_assoc, BitVec.and_not_self]
  exact BitVec.and_zero

/-- Settles O27: whatever the byte, it is masked before it is written. -/
theorem randomByteIsMasked : Obligations.RandomByteIsMasked := by
  unfold Obligations.RandomByteIsMasked
  refine ⟨fun r x kk s hx => rndWith_next r hx kk s, fun x kk s hx => ?exec, exec_rnd_eq_rndWith⟩
  refine ⟨_, (exec_rnd_eq_rndWith x kk s).trans (rndWith_next _ hx kk s), ?masked, fun r hr => ?other, rfl, rfl⟩
  case masked => exact (congrArg (· &&& ~~~kk) (State.reg_setReg_same s x _)).trans (byte_and_and_not _ kk)
  case other => exact State.reg_setReg_other s hr.symm _

end Sys2Proof.Machine

/-! ## Index register and memory transfers (spec/43_index_memory.md) -/

namespace Sys2Proof.Machine

/-! ### The index register (R140 to R142) -/

/-- Settles O28: no register field is tested and the rule always completes. -/
theorem loadIndexImmediate : Obligations.LoadIndexImmediate := by
  unfold Obligations.LoadIndexImmediate
  intro nnn s
  rw [← addrToWord_eq_ofNat]
  exact exec_ok List.not_mem_nil rfl

/-- The sum of `ADD I` is reduced to 16 bits alone (R141). -/
theorem word_add_byteToWord_toNat (w : Word) (b : Byte) :
    (w + byteToWord b).toNat = (w.toNat + b.toNat) % 65536 := by
  rw [BitVec.toNat_add, byteToWord, BitVec.toNat_setWidth_of_le (by decide)]

/-- Settles O29: the rule always completes and writes the index register alone. -/
theorem addToIndexWrapsSilently : Obligations.AddToIndexWrapsSilently := by
  unfold Obligations.AddToIndexWrapsSilently
  exact fun x s hx =>
    ⟨_, exec_ok (flagReg_not_mem_single hx) rfl, word_add_byteToWord_toNat s.index (s.reg x), rfl, rfl⟩

theorem ruleOf_ldFV_noFont (x : Reg) {p : State} (h : p.cfg.font = none) :
    ruleOf (.ldFV x) p = .error { cause := .noFont, addr := 0 } := by
  simp only [ruleOf, h]

theorem ruleOf_ldFV_font (x : Reg) {p : State} {f : Font} (h : p.cfg.font = some f) :
    ruleOf (.ldFV x) p = .ok { p with index := f.glyphAddr[(p.reg x).toNat] } := by
  simp only [ruleOf, h]

/-- Settles O30: the rule traps without a font and completes with one. -/
theorem glyphAddressOrNoFont : Obligations.GlyphAddressOrNoFont := by
  unfold Obligations.GlyphAddressOrNoFont
  exact ⟨fun x s hx hfont => ⟨_, exec_trap (flagReg_not_mem_single hx) (ruleOf_ldFV_noFont x hfont), rfl⟩,
    fun x f s hx hfont => exec_ok (flagReg_not_mem_single hx) (ruleOf_ldFV_font x hfont)⟩

/-! ### The causes of a failing transfer (spec/20_memory.md R46, R47) -/

section DataAccess

variable {i : Instr} {kind : Access} {len : Nat} {s : State}
  (hi : flagReg ∉ testedRegs i) (hd : dataAccess i = some (kind, len))

include hi hd

/-- A failing byte below program space: the first byte that fails lies there too. -/
theorem takesFault_memGuard_of_byte {k : Nat} (hk : k < len) (hlo : s.index.toNat + k < 0x200)
    (hfail : ¬ accessible s kind (s.index.toNat + k)) : takesFault i s .memGuard := by
  classical
  have hex : ∃ j, ¬ accessible s kind (s.index.toNat + j) := ⟨k, hfail⟩
  have hle : Nat.find hex ≤ k := Nat.find_min' hex hfail
  have hrec := takesRecord_of_first hi hd (by omega) (fun j hj => not_not.mp (Nat.find_min hex hj)) (Nat.find_spec hex)
  rw [if_pos (by omega)] at hrec
  exact takesFault_of_takesRecord hrec

/-- No instruction's transfer is long enough to begin below program space and run past the top. -/
theorem takesFault_memRange_of_end (hpos : 0 < len) (hlen : len ≤ 16) (hhi : 0x1000 < s.index.toNat + len) :
    takesFault i s .memRange :=
  takesFault_of_takesRecord (takesRecord_memRange hi hd hpos (by omega) hhi)

end DataAccess

/-- A store that begins in the guard region fails at `I`, with or without a font. -/
theorem takesFault_memGuard_of_store {i : Instr} {len : Nat} {s : State} (hi : flagReg ∉ testedRegs i)
    (hd : dataAccess i = some (.write, len)) (hlen : 0 < len) (hlo : s.index.toNat < 0x200) :
    takesFault i s .memGuard :=
  takesFault_of_takesRecord (takesRecord_memGuard hi hd hlen hlo (.inl rfl))

/-! ### The two stores (R143, R144) -/

/-- A stored block reads back byte by byte. -/
theorem Memory.read_writeBytes_inside {m : Memory} {ea k : Nat} {vs : List Byte} (hwf : m.wf = true)
    (hend : ea + vs.length ≤ 0x1000) (hk : k < vs.length) : (m.writeBytes ea vs).read (ea + k) = vs[k] := by
  rw [Memory.read_writeBytes hwf hend, dif_pos (by omega)]
  simp only [Nat.add_sub_cancel_left]

/-- A stored block leaves every byte below and above it. -/
theorem Memory.read_writeBytes_outside {m : Memory} {ea a : Nat} {vs : List Byte} (hwf : m.wf = true)
    (hend : ea + vs.length ≤ 0x1000) (ha : a < ea ∨ ea + vs.length ≤ a) :
    (m.writeBytes ea vs).read a = m.read a := by
  rw [Memory.read_writeBytes hwf hend, dif_neg (by omega)]

/-- A store of three digits inside program space completes and writes memory alone, besides the advance of `pc`. -/
theorem exec_ldBV_program {x : Reg} {s : State} (hx : x ≠ 15#4) (hlo : 0x200 ≤ s.index.toNat)
    (hhi : s.index.toNat + 2 ≤ 0xFFF) :
    exec (.ldBV x) s =
      .next { s.advance with mem := s.mem.writeBytes s.index.toNat (decimalDigits (s.reg x)) } := by
  have hok : s.advance.dataFault .write 3 = none := accessFault_program hlo (Nat.succ_le_succ hhi)
  exact exec_ok (flagReg_not_mem_single hx) (by simp [ruleOf, withAccess_ok hok])

/-- A number that fits in the word is stored as it is. -/
theorem toNat_ofNat_of_lt {w n : Nat} (h : n < 2 ^ w) : (BitVec.ofNat w n).toNat = n := Nat.mod_eq_of_lt h

/-- Settles O31: the bytes stored are the digits, and each of them fits in a byte. -/
theorem decimalDigitsAreStored : Obligations.DecimalDigitsAreStored := by
  unfold Obligations.DecimalDigitsAreStored
  refine ⟨fun x s hx hwf hlo hhi => ?stored, fun x s hx => ?guard, fun x s hx hhi => ?range,
    fun s => takesFault_regIndex s (List.mem_singleton_self _)⟩
  case stored =>
    have hend : s.index.toNat + (decimalDigits (s.reg x)).length ≤ 0x1000 := Nat.succ_le_succ hhi
    have digit {k : Nat} (hk : k < 3) := Memory.read_writeBytes_inside hwf hend hk
    have hbyte := (s.reg x).isLt
    refine ⟨_, exec_ldBV_program hx hlo hhi, ?hundreds, ?tens, ?ones, fun a ha => ?other, rfl, rfl⟩
    case hundreds => exact (congrArg _ (digit (k := 0) (by decide))).trans (toNat_ofNat_of_lt (by omega))
    case tens => exact (congrArg _ (digit (k := 1) (by decide))).trans (toNat_ofNat_of_lt (by omega))
    case ones => exact (congrArg _ (digit (k := 2) (by decide))).trans (toNat_ofNat_of_lt (by omega))
    case other => exact Memory.read_writeBytes_outside hwf hend ha
  case guard => exact takesFault_memGuard_of_store (flagReg_not_mem_single hx) rfl (by decide)
  case range =>
    exact takesFault_memRange_of_end (flagReg_not_mem_single hx) rfl (by decide) (by decide) (Nat.succ_lt_succ hhi)

/-- Settles O32: the bytes stored are the registers. -/
theorem registersAreStored : Obligations.RegistersAreStored := by
  unfold Obligations.RegistersAreStored
  refine ⟨fun x s hx hwf hlo hhi => ?stored, fun x s hx => ?guard, fun x s hx hhi => ?range,
    fun s => takesFault_regIndex s (List.mem_singleton_self _)⟩
  case stored =>
    have hend : s.index.toNat + (x.toNat + 1) ≤ 0x1000 := Nat.succ_le_succ hhi
    refine ⟨_, exec_ldMIV_program hx.symm hlo hhi, fun k hk => ?inside, fun a ha => ?outside, rfl, rfl⟩
    case inside => exact Memory.read_writeBytes_regsFrom s hwf hend (Nat.lt_succ_of_le hk)
    case outside =>
      have hlen := s.regsFrom_length (x.toNat + 1) 0
      exact Memory.read_writeBytes_outside hwf (by rwa [hlen]) (by rwa [hlen])
  case guard => exact takesFault_memGuard_of_store (flagReg_not_mem_single hx) rfl (Nat.succ_pos _)
  case range =>
    exact takesFault_memRange_of_end (flagReg_not_mem_single hx) rfl (Nat.succ_pos _) x.isLt (Nat.succ_lt_succ hhi)

/-! ### The block load (R145) -/

/-- A block load gives each of its registers the byte at its own offset. -/
theorem State.reg_setRegsFrom_readBytes (p : State) (m : Memory) {ea n : Nat} {r : Reg} (hn : n ≤ 16)
    (hr : r.toNat < n) : (p.setRegsFrom 0 (m.readBytes ea n)).reg r = m.read (ea + r.toNat) := by
  rw [State.reg_setRegsFrom _ _ _ _ (by simpa using hn), dif_pos (by simpa using hr)]
  simp

theorem sameButRegs_advance_setRegsFrom (s : State) (bs : List Byte) :
    sameButRegs s (s.advance.setRegsFrom 0 bs) := by
  rw [State.setRegsFrom_eq]
  rfl

/-- A block load of readable bytes completes, loads `V[0]` to `V[x]` and leaves everything else. -/
theorem exec_ldVMI_readable {x : Reg} {s : State} (hx : x ≠ 15#4)
    (hread : ∀ k, k ≤ x.toNat → readable s (s.index.toNat + k)) :
    ∃ t, exec (.ldVMI x) s = .next t ∧
      (∀ r : Reg, r.toNat ≤ x.toNat → t.reg r = s.mem.read (s.index.toNat + r.toNat)) ∧
      (∀ r : Reg, x.toNat < r.toNat → t.reg r = s.reg r) ∧ t.pc = s.pc + 2 ∧ sameButRegs s t := by
  have hok : s.advance.dataFault .read (x.toNat + 1) = none :=
    (accessFault_none_iff _).mpr fun k hk => addressFault_none_iff_accessible.mpr (hread k (Nat.le_of_lt_succ hk))
  have hexec : exec (.ldVMI x) s =
      .next (s.advance.setRegsFrom 0 (s.mem.readBytes s.index.toNat (x.toNat + 1))) :=
    exec_ok (flagReg_not_mem_single hx) (by simp [ruleOf, withAccess_ok hok])
  refine ⟨_, hexec, fun r hr => ?loaded, fun r hr => ?above,
    State.setRegsFrom_pc .., sameButRegs_advance_setRegsFrom s _⟩
  case loaded => exact State.reg_setRegsFrom_readBytes s.advance s.mem x.isLt (Nat.lt_succ_of_le hr)
  case above => exact s.advance.reg_setRegsFrom_above (by rw [Memory.readBytes_length]; exact hr)

/-- Settles O33: a load of readable bytes completes, and one with a byte that is not readable faults. -/
theorem registersAreLoaded : Obligations.RegistersAreLoaded := by
  unfold Obligations.RegistersAreLoaded
  refine ⟨fun x s hx hread => ?loaded, fun x k s hx hk => ?guard, fun x s hx hhi => ?range,
    fun s => takesFault_regIndex s (List.mem_singleton_self _)⟩
  case loaded =>
    obtain ⟨t, hexec, hbytes, hframe⟩ := exec_ldVMI_readable hx hread
    refine ⟨t, hexec, fun k hk => ?_, hframe⟩
    have hreg : (BitVec.ofNat 4 k).toNat = k := toNat_ofNat_of_lt (lt_of_le_of_lt hk x.isLt)
    rw [hbytes _ (by rwa [hreg]), hreg]
  case guard => exact takesFault_memGuard_of_byte (i := .ldVMI x) (flagReg_not_mem_single hx) rfl (Nat.lt_succ_of_le hk)
  case range =>
    exact takesFault_memRange_of_end (flagReg_not_mem_single hx) rfl (Nat.succ_pos _) x.isLt (Nat.succ_lt_succ hhi)

/-! ### A block store and then a block load (R145, R146) -/

/-- A block load at the same `I`, from the memory that a block store left, gives the stored registers back, whatever
is in the registers by then. -/
theorem exec_ldVMI_of_stored {x : Reg} {s t : State} (hx : x ≠ 15#4) (hwf : s.mem.wf = true)
    (hlo : 0x200 ≤ s.index.toNat) (hhi : s.index.toNat + x.toNat ≤ 0xFFF) (hindex : t.index = s.index)
    (hmem : t.mem = s.mem.writeBytes s.index.toNat (s.regsFrom 0 (x.toNat + 1))) :
    ∃ u, exec (.ldVMI x) t = .next u ∧ (∀ r : Reg, r.toNat ≤ x.toNat → u.reg r = s.reg r) ∧
      (∀ r : Reg, x.toNat < r.toNat → u.reg r = t.reg r) ∧ u.index = s.index := by
  have hread (k : Nat) (hk : k ≤ x.toNat) : readable t (t.index.toNat + k) := by
    rw [hindex]
    exact accessible_of_program (kind := .read) (by omega) (by omega)
  obtain ⟨u, hexec, hloaded, habove, -, hsame⟩ := exec_ldVMI_readable hx hread
  refine ⟨u, hexec, fun r hr => ?_, habove, (congrArg State.index hsame).trans hindex⟩
  rw [hloaded r hr, hmem, hindex,
    Memory.read_writeBytes_regsFrom s hwf (Nat.succ_le_succ hhi) (Nat.lt_succ_of_le hr), BitVec.ofNat_toNat,
    BitVec.setWidth_eq]

/-- Settles O34: the store leaves the registers, so the first claim is the second with those in between. -/
theorem blockStoreThenLoadRoundTrips : Obligations.BlockStoreThenLoadRoundTrips := by
  unfold Obligations.BlockStoreThenLoadRoundTrips
  intro x s hx hwf hlo hhi
  obtain ⟨t, hstore, hindex, hmem, hreg⟩ : ∃ t, exec (.ldMIV x) s = .next t ∧ t.index = s.index ∧
      t.mem = s.mem.writeBytes s.index.toNat (s.regsFrom 0 (x.toNat + 1)) ∧ ∀ r : Reg, t.reg r = s.reg r :=
    ⟨_, exec_ldMIV_program hx.symm hlo hhi, rfl, rfl, fun _ => rfl⟩
  have hload (w : Vector Byte 16) := exec_ldVMI_of_stored (t := { t with v := w }) hx hwf hlo hhi hindex hmem
  refine ⟨?same, t, hstore, hload⟩
  case same =>
    obtain ⟨u, hexec, hback, habove, hindex⟩ := hload t.v
    refine ⟨t, u, hstore, hexec, fun r => ?_, hindex⟩
    obtain hr | hr := Nat.lt_or_ge x.toNat r.toNat
    · exact (habove r hr).trans (hreg r)
    · exact hback r hr

end Sys2Proof.Machine

/-! ## Display (spec/44_display.md) -/

namespace Sys2Proof.Machine

/-! ### Clearing the screen (R160) -/

/-- Settles O37: no register field is tested and the rule always completes. -/
theorem clsClearsTheFramebuffer : Obligations.ClsClearsTheFramebuffer := by
  unfold Obligations.ClsClearsTheFramebuffer
  exact fun s => ⟨_, exec_ok List.not_mem_nil rfl, Framebuffer.get_blank, rfl, rfl, rfl⟩

/-! ### Places counted from the top-left pixel, with wrap-around (R161) -/

/-- How far a row or column lies from the first one of the sprite, counted with wrap-around; `spriteOn` counts so. -/
def wrapOffset {size : Nat} (first : Nat) (pos : Fin size) : Nat := (pos.val + size - first % size) % size

/-- The place at distance `k` is the one reached by `k` steps from the first, modulo the size of the axis. -/
theorem wrapOffset_eq_iff {size k : Nat} (first : Nat) (pos : Fin size) (hk : k < size) :
    wrapOffset first pos = k ↔ pos.val = (first + k) % size := by
  have hpos := pos.isLt
  have hfirst : first % size < size := Nat.mod_lt _ (by omega)
  rw [wrapOffset, Nat.add_mod_eq_ite, Nat.mod_eq_of_lt hk]
  by_cases hwrap : pos.val < first % size
  · rw [Nat.mod_eq_of_lt (by omega)]
    split <;> omega
  · rw [Nat.mod_eq_sub_mod (by omega), Nat.mod_eq_of_lt (by omega)]
    split <;> omega

/-! ### A drawing is the exclusive or of a pattern (R162) -/

/-- `e` is the drawing `d` after the exclusive or of the pattern `on`, and reports an erase if `d` did or if a set bit
met a lit cell. -/
structure Drawing.Xors (d e : Drawing) (on : Fin 32 → Fin 64 → Bool) : Prop where
  get (r : Fin 32) (c : Fin 64) : e.fb.get r c = (d.fb.get r c != on r c)
  erased : e.erased = true ↔ d.erased = true ∨ ∃ r c, d.fb.get r c = true ∧ on r c = true

theorem Drawing.Xors.refl (d : Drawing) : d.Xors d fun _ _ => false where
  get r c := (Bool.bne_false _).symm
  erased := by simp

theorem Drawing.Xors.congr {d e : Drawing} {on on' : Fin 32 → Fin 64 → Bool} (h : d.Xors e on)
    (heq : ∀ r c, on r c = on' r c) : d.Xors e on' :=
  (funext₂ heq : on = on') ▸ h

/-- Two patterns drawn one after the other that share no cell are one pattern: the second meets the cells as they were
before the first. -/
theorem Drawing.Xors.trans {d e f : Drawing} {on on' : Fin 32 → Fin 64 → Bool} (h : d.Xors e on) (h' : e.Xors f on')
    (hdisj : ∀ r c, on' r c = true → on r c = false) : d.Xors f fun r c => on r c || on' r c where
  get r c := by
    rw [h'.get, h.get]
    cases hon : on' r c
    · simp
    · simp [hdisj r c hon]
  erased := by
    have hsecond (r c) (hon : on' r c = true) : e.fb.get r c = d.fb.get r c := by simp [h.get, hdisj r c hon]
    have hmet : (∃ r c, e.fb.get r c = true ∧ on' r c = true) ↔ ∃ r c, d.fb.get r c = true ∧ on' r c = true :=
      exists₂_congr fun r c => and_congr_left fun hon => by rw [hsecond r c hon]
    rw [h'.erased, h.erased, hmet]
    simp only [Bool.or_eq_true, and_or_left, exists_or, or_assoc]

/-! ### The pixel, the row and the sprite as patterns (R161) -/

/-- A pixel is the pattern of one cell, the one at its distances from the top-left pixel. -/
theorem drawPixel_xors (d : Drawing) (row col : Nat) {j k : Nat} (hj : j < 32) (hk : k < 64) :
    d.Xors (drawPixel d (row + j) (col + k)) fun r c => decide (wrapOffset row r = j ∧ wrapOffset col c = k) where
  get r c := by
    simp only [drawPixel_get, wrapOffset_eq_iff row r hj, wrapOffset_eq_iff col c hk]
    split <;> simp [*]
  erased := by
    rw [drawPixel_erased, Bool.or_eq_true]
    refine or_congr_right ⟨fun hlit => ⟨_, _, hlit, ?_⟩, fun ⟨r, c, hlit, hon⟩ => ?_⟩
    · simp only [wrapOffset_eq_iff _ _ hj, wrapOffset_eq_iff _ _ hk, and_self, decide_true]
    · rw [decide_eq_true_eq, wrapOffset_eq_iff row r hj, wrapOffset_eq_iff col c hk] at hon
      obtain ⟨hr, hc⟩ := hon
      exact (congrArg₂ d.fb.get (Fin.ext hr) (Fin.ext hc)).symm.trans hlit

/-- One bit of a sprite, set or not. -/
theorem drawBit_xors (d : Drawing) (bit : Bool) (row col : Nat) {j k : Nat} (hj : j < 32) (hk : k < 64) :
    d.Xors (if bit then drawPixel d (row + j) (col + k) else d)
      fun r c => decide (wrapOffset row r = j ∧ wrapOffset col c = k) && bit := by
  cases bit with
  | true => exact (drawPixel_xors d row col hj hk).congr fun r c => (Bool.and_true _).symm
  | false => exact (Drawing.Xors.refl d).congr fun r c => (Bool.and_false _).symm

/-- The first `n` columns of row `j` of a sprite, where that row is the byte `b`. -/
def rowOn (b : Byte) (row col j n : Nat) (r : Fin 32) (c : Fin 64) : Bool :=
  decide (wrapOffset row r = j) && decide (wrapOffset col c < n) && b.getLsbD (7 - wrapOffset col c)

theorem rowOn_succ (b : Byte) (row col j n : Nat) (r : Fin 32) (c : Fin 64) :
    rowOn b row col j (n + 1) r c =
      (rowOn b row col j n r c ||
        decide (wrapOffset row r = j ∧ wrapOffset col c = n) && b.getLsbD (7 - n)) := by
  by_cases hc : wrapOffset col c = n
  · simp [rowOn, hc]
  · have hlt : wrapOffset col c < n + 1 ↔ wrapOffset col c < n := by omega
    simp [rowOn, hc, hlt]

/-- The columns of a row are drawn from the left. -/
theorem drawRow_columns_xors (d : Drawing) (b : Byte) (row col : Nat) {j n : Nat} (hj : j < 32) (hn : n ≤ 64) :
    d.Xors ((List.range n).foldl
      (fun d c => if b.getLsbD (7 - c) then drawPixel d (row + j) (col + c) else d) d) (rowOn b row col j n) := by
  induction n with
  | zero => exact (Drawing.Xors.refl d).congr fun r c => by simp [rowOn]
  | succ n ih =>
    rw [List.range_succ, List.foldl_append, List.foldl_cons, List.foldl_nil]
    have hbit (e : Drawing) := drawBit_xors e (b.getLsbD (7 - n)) row col hj hn
    refine ((ih (by omega)).trans (hbit _) fun r c hon => ?_).congr fun r c => (rowOn_succ b row col j n r c).symm
    simp only [Bool.and_eq_true, decide_eq_true_eq] at hon
    obtain ⟨⟨-, hc⟩, -⟩ := hon
    simp [rowOn, hc]

theorem drawRow_xors (d : Drawing) (b : Byte) (row col : Nat) {j : Nat} (hj : j < 32) :
    d.Xors (drawRow d b (row + j) col) (rowOn b row col j 8) :=
  drawRow_columns_xors d b row col hj (by decide)

/-- The rows `j` to `j + n - 1` of a sprite whose bytes stand in memory from `a` upward. -/
def rowsOn (m : Memory) (a row col j n : Nat) (r : Fin 32) (c : Fin 64) : Bool :=
  decide (j ≤ wrapOffset row r) && decide (wrapOffset row r < j + n) && decide (wrapOffset col c < 8) &&
    (m.read (a + wrapOffset row r)).getLsbD (7 - wrapOffset col c)

theorem rowsOn_zero (m : Memory) (a row col j : Nat) (r : Fin 32) (c : Fin 64) :
    rowsOn m a row col j 0 r c = false := by
  have hempty : ¬ (j ≤ wrapOffset row r ∧ wrapOffset row r < j) := by omega
  simp [rowsOn, ← Bool.decide_and, hempty]

theorem rowsOn_succ (m : Memory) (a row col j n : Nat) (r : Fin 32) (c : Fin 64) :
    rowsOn m a row col j (n + 1) r c =
      (rowOn (m.read (a + j)) row col j 8 r c || rowsOn m a row col (j + 1) n r c) := by
  by_cases hr : wrapOffset row r = j
  · simp [rowsOn, rowOn, hr]
  · have hlo : j + 1 ≤ wrapOffset row r ↔ j ≤ wrapOffset row r := by omega
    have hhi : j + (n + 1) = j + 1 + n := by omega
    simp only [rowsOn, rowOn, hr, hlo, hhi, decide_false, Bool.false_and, Bool.false_or]

/-- The rows of a sprite are drawn from the top; one of at most 32 rows does not meet itself. -/
theorem drawRows_xors (m : Memory) (a row col : Nat) {n : Nat} : ∀ (d : Drawing) (j : Nat), j + n ≤ 32 →
    d.Xors (drawRows d (row + j) col (m.readBytes (a + j) n)) (rowsOn m a row col j n) := by
  induction n with
  | zero => exact fun d j _ => (Drawing.Xors.refl d).congr fun r c => (rowsOn_zero m a row col j r c).symm
  | succ n ih =>
    intro d j hj
    have hrow := drawRow_xors d (m.read (a + j)) row col (j := j) (by omega)
    refine (hrow.trans (ih _ (j + 1) (by omega)) fun r c hon => ?_).congr
      fun r c => (rowsOn_succ m a row col j n r c).symm
    have hne : wrapOffset row r ≠ j := by
      simp only [rowsOn, Bool.and_eq_true, decide_eq_true_eq] at hon
      omega
    simp [rowOn, hne]

theorem rowsOn_eq_spriteOn (s : State) (x y : Reg) (n : Nibble) (r : Fin 32) (c : Fin 64) :
    rowsOn s.mem s.index.toNat (s.reg y).toNat (s.reg x).toNat 0 n.toNat r c = spriteOn s x y n r c := by
  simp only [rowsOn, Nat.zero_le, decide_true, Bool.true_and, Nat.zero_add]
  rfl

/-- The draw of an instruction is the exclusive or of its sprite. -/
theorem State.drawing_xors (s : State) (x y : Reg) (n : Nibble) :
    Drawing.Xors { fb := s.fb, erased := false } (s.drawing x y n) (spriteOn s x y n) :=
  have hn : 0 + n.toNat ≤ 32 := by have := n.isLt; omega
  (drawRows_xors s.mem s.index.toNat (s.reg y).toNat (s.reg x).toNat _ 0 hn).congr (rowsOn_eq_spriteOn s x y n)

/-- The draw reports an erase exactly where a set bit met a lit cell. -/
theorem State.drawing_erased_iff (s : State) (x y : Reg) (n : Nibble) :
    (s.drawing x y n).erased = true ↔ ∃ r c, s.fb.get r c = true ∧ spriteOn s x y n r c = true := by
  rw [(s.drawing_xors x y n).erased, or_iff_right Bool.false_ne_true]

/-! ### The instruction (R161) -/

/-- A draw of readable bytes completes; besides the advance of `pc` it writes the flag, the framebuffer, the index
register and `dirty` alone. -/
theorem exec_drw_readable {x y : Reg} {n : Nibble} {s : State} (hx : x ≠ 15#4) (hy : y ≠ 15#4)
    (hread : spriteReadable s n) :
    exec (.drw x y n) s = .next { s.advance.setReg flagReg (flagByte (s.drawing x y n).erased) with
      fb := (s.drawing x y n).fb
      index := s.index + n.setWidth 16
      dirty := true } := by
  have hok : s.advance.dataFault .read n.toNat = none :=
    (accessFault_none_iff _).mpr fun k hk => addressFault_none_iff_accessible.mpr (hread k hk)
  exact exec_ok (flagReg_not_mem_pair hx hy) (by simp [ruleOf, withAccess_ok hok, State.drawing])

theorem word_add_nibble_toNat (w : Word) (n : Nibble) :
    (w + n.setWidth 16).toNat = (w.toNat + n.toNat) % 65536 := by
  rw [BitVec.toNat_add, BitVec.toNat_setWidth_of_le (by decide)]

theorem flagByte_eq_one {b : Bool} (h : b = true) : flagByte b = 1 := h ▸ rfl

theorem flagByte_eq_zero {b : Bool} (h : b ≠ true) : flagByte b = 0 := Bool.eq_false_of_not_eq_true h ▸ rfl

/-- Settles O38: the drawing is the exclusive or of the sprite; a byte that is not readable faults. -/
theorem drwXorsTheSprite : Obligations.DrwXorsTheSprite := by
  unfold Obligations.DrwXorsTheSprite
  refine ⟨fun x y n s hx hy hread => ?drawn, fun x y n k s hx hy => ?guard, fun x y n s hx hy hpos hhi => ?range,
    fun x y n s hxy => takesFault_regIndex s (flagReg_mem_pair hxy)⟩
  case drawn =>
    have hflag := State.reg_setReg_same s.advance flagReg (flagByte (s.drawing x y n).erased)
    refine ⟨_, exec_drw_readable hx hy hread, (s.drawing_xors x y n).get, fun hlit => ?lit, fun hdark => ?dark,
      fun r hr => State.reg_setReg_other s.advance hr.symm _, word_add_nibble_toNat s.index n, rfl, rfl, rfl⟩
    case lit => exact hflag.trans (flagByte_eq_one ((s.drawing_erased_iff x y n).mpr hlit))
    case dark =>
      refine hflag.trans (flagByte_eq_zero fun herased => ?_)
      obtain ⟨r, c, hlit⟩ := (s.drawing_erased_iff x y n).mp herased
      exact hdark r c hlit
  case guard => exact takesFault_memGuard_of_byte (i := .drw x y n) (flagReg_not_mem_pair hx hy) rfl
  case range =>
    exact takesFault_memRange_of_end (flagReg_not_mem_pair hx hy) rfl hpos (Nat.le_of_lt n.isLt) (by omega)

/-! ### Drawing twice (R162) -/

/-- The sprite depends on its two registers, the index register and memory alone. -/
theorem spriteOn_congr {s t : State} {x y : Reg} (n : Nibble) (hx : t.reg x = s.reg x) (hy : t.reg y = s.reg y)
    (hindex : t.index = s.index) (hmem : t.mem = s.mem) : spriteOn t x y n = spriteOn s x y n := by
  unfold spriteOn
  rw [hx, hy, hindex, hmem]

theorem spriteReadable.congr {s t : State} {n : Nibble} (h : spriteReadable s n) (hindex : t.index = s.index)
    (hcfg : t.cfg = s.cfg) : spriteReadable t n := by
  simpa only [spriteReadable, readable, hindex, hcfg] using h

/-- Settles O39: the second draw is the exclusive or of the same sprite, and meets a lit cell where the first lit it. -/
theorem drawingTwiceRestores : Obligations.DrawingTwiceRestores := by
  unfold Obligations.DrawingTwiceRestores
  intro x y n s hx hy hread
  obtain ⟨hdraws, -⟩ := drwXorsTheSprite
  obtain ⟨t, hfirst, hfb, -, -, hreg, -, -, -, hframe⟩ := hdraws x y n s hx hy hread
  have hcfg := congrArg State.cfg hframe
  have hmem := congrArg State.mem hframe
  have hread' : spriteReadable { t with index := s.index } n := hread.congr rfl hcfg
  have hsprite : spriteOn { t with index := s.index } x y n = spriteOn s x y n :=
    spriteOn_congr n (hreg x hx) (hreg y hy) rfl hmem
  obtain ⟨u, hsecond, hfb', hlit, hdark, -⟩ := hdraws x y n _ hx hy hread'
  rw [hsprite] at hfb' hlit hdark
  have hmet (r c) : t.fb.get r c = true ∧ spriteOn s x y n r c = true ↔
      s.fb.get r c = false ∧ spriteOn s x y n r c = true :=
    and_congr_left fun hon => by rw [hfb, hon, Bool.bne_true, Bool.not_eq_true']
  simp only [hmet] at hlit hdark
  exact ⟨t, u, hfirst, hsecond, fun r c => by simp [hfb', hfb], hlit, hdark⟩

end Sys2Proof.Machine

/-! ## Keys and timers (spec/45_keys_timers.md) -/

namespace Sys2Proof.Machine

/-! ### The key skips (R170 to R172) -/

theorem pressed_iff {keys : Word} {v : Byte} : pressed keys v = true ↔ v.toNat < 16 ∧ keys.getLsbD v.toNat = true := by
  rw [pressed, Bool.and_eq_true, decide_eq_true_eq]

theorem State.keysNow_stub {s : State} (h : s.cfg.keys = .stub) : s.keysNow = 0 := by
  simp only [State.keysNow, h]

/-- A sample and a skip: the sample is counted, and `pc` moves as it does without one. -/
theorem State.advance_sampled_skipIf (s : State) (c : Bool) :
    s.advance.sampled.skipIf c =
      { s with pc := if c then s.pc + 4 else s.pc + 2, keySamples := s.keySamples + 1 } :=
  s.sampled.advance_skipIf c

theorem skpWith_next (keys : Word) {x : Reg} (hx : x ≠ 15#4) (s : State) :
    skpWith keys x s = .next { s with
      pc := if (s.reg x).toNat < 16 ∧ keys.getLsbD (s.reg x).toNat = true then s.pc + 4 else s.pc + 2
      keySamples := s.keySamples + 1 } := by
  have hskip : skpWith keys x s = .next (s.advance.sampled.skipIf (pressed keys (s.reg x))) :=
    perform_ok (flagReg_not_mem_single hx) rfl
  rw [hskip, State.advance_sampled_skipIf]
  simp only [pressed_iff]

theorem sknpWith_next (keys : Word) {x : Reg} (hx : x ≠ 15#4) (s : State) :
    sknpWith keys x s = .next { s with
      pc := if (s.reg x).toNat < 16 ∧ keys.getLsbD (s.reg x).toNat = true then s.pc + 2 else s.pc + 4
      keySamples := s.keySamples + 1 } := by
  have hskip : sknpWith keys x s = .next (s.advance.sampled.skipIf (!pressed keys (s.reg x))) :=
    perform_ok (flagReg_not_mem_single hx) rfl
  rw [hskip, State.advance_sampled_skipIf]
  simp only [Bool.not_eq_true', ← Bool.not_eq_true, ite_not, pressed_iff]

/-- Settles O41: `exec` runs the two skips on the value a sample yields now. -/
theorem keySkipsTestTheNamedKey : Obligations.KeySkipsTestTheNamedKey := by
  unfold Obligations.KeySkipsTestTheNamedKey
  exact ⟨fun keys x s hx => ⟨skpWith_next keys hx s, sknpWith_next keys hx s⟩,
    fun x s hx => ⟨skpWith_next s.keysNow hx s, sknpWith_next s.keysNow hx s⟩, fun s => State.keysNow_stub⟩

/-! ### The key wait (R173) -/

theorem ruleOf_ldVKey_stubZero (x : Reg) {p : State} (h : p.cfg.keywait = .stubZero) :
    ruleOf (.ldVKey x) p = .ok (p.setReg x 0) := by
  simp only [ruleOf, h]

theorem ldVKeyWith_pollRetry (keys : Word) {x : Reg} {s : State} (hx : x ≠ 15#4) (h : s.cfg.keywait = .pollRetry) :
    ldVKeyWith keys x s = .next (pollRetry keys x s.advance) :=
  perform_ok (flagReg_not_mem_single hx) (by simp only [State.advance_cfg, h])

/-- A key that is down, with none below it down, is the one the poll stores: the converse of `lowestKey_some`. -/
theorem lowestKey_eq_some {keys : Word} {k : Nat} (hk : keys.getLsbD k = true)
    (hbelow : ∀ j, j < k → keys.getLsbD j = false) : lowestKey keys = some k := by
  have hlt : k < 16 := BitVec.lt_of_getLsbD hk
  rw [lowestKey, List.find?_range_eq_some]
  exact ⟨hk, List.mem_range.mpr hlt, fun j hj => by rw [hbelow j hj, Bool.not_false]⟩

theorem pollRetry_none (x : Reg) (p : State) : pollRetry 0 x p = { p.sampled with pc := p.pc - 2 } := by
  rw [pollRetry, lowestKey_none_iff.mpr rfl]

theorem pollRetry_some {keys : Word} {k : Nat} (h : lowestKey keys = some k) (x : Reg) (p : State) :
    pollRetry keys x p = p.sampled.setReg x (BitVec.ofNat 8 k) := by
  rw [pollRetry, h]

/-- With no key down the advance of `pc` is taken back: the instruction stands at itself. -/
theorem pollRetry_none_advance (x : Reg) (s : State) : pollRetry 0 x s.advance = s.sampled := by
  have hpc : s.pc + 2 - 2 = s.pc := BitVec.add_sub_cancel s.pc 2
  calc pollRetry 0 x s.advance
      = { s.sampled with pc := s.pc + 2 - 2 } := pollRetry_none x s.advance
    _ = s.sampled := congrArg (fun a => { s.sampled with pc := a }) hpc

/-- Settles O42: the mode picks the rule, and in POLL_RETRY mode the lowest key picks between the retry and the write. -/
theorem keyWaitFollowsItsMode : Obligations.KeyWaitFollowsItsMode := by
  unfold Obligations.KeyWaitFollowsItsMode
  refine ⟨fun x s hx hmode => ?stub, fun x s hx hmode => ?retry, fun keys k x s hx hmode hk hbelow => ?store,
    fun _ _ => rfl⟩
  case stub => exact exec_setReg (flagReg_not_mem_single hx) (ruleOf_ldVKey_stubZero x hmode)
  case retry => exact (ldVKeyWith_pollRetry 0 hx hmode).trans (congrArg _ (pollRetry_none_advance x s))
  case store =>
    have hlow : lowestKey keys = some k := lowestKey_eq_some hk hbelow
    exact (ldVKeyWith_pollRetry keys hx hmode).trans (congrArg _ (pollRetry_some hlow x s.advance))

/-! ### The timer moves (R174 to R176) -/

/-- Settles O43: one rule writes a register, the other two a timer. -/
theorem timerMoves : Obligations.TimerMoves := by
  unfold Obligations.TimerMoves
  refine ⟨fun x s hx => ?moves, fun s => ?faults⟩
  case moves =>
    have hfield := flagReg_not_mem_single hx
    exact ⟨exec_setReg hfield rfl, exec_ok hfield rfl, exec_ok hfield rfl⟩
  case faults =>
    have hfield : flagReg ∈ [15#4] := List.mem_singleton_self _
    exact ⟨takesFault_regIndex s hfield, takesFault_regIndex s hfield, takesFault_regIndex s hfield⟩

/-! ### Ticks (R178) -/

theorem countDown_toNat (t : Byte) : (countDown t).toNat = t.toNat - 1 := by
  rw [countDown_eq]
  exact toNat_ofNat_of_lt (Nat.lt_of_le_of_lt (Nat.sub_le ..) t.isLt)

/-- Settles O44, by induction on the number of ticks: the first takes 1 from each timer, the others the rest. -/
theorem ticksCountDownToZero : Obligations.TicksCountDownToZero := by
  unfold Obligations.TicksCountDownToZero
  intro k
  induction k with
  | zero => exact fun s => ⟨s, rfl, rfl, rfl, rfl⟩
  | succ k ih =>
    intro s
    obtain ⟨t, hrun, hdt, hst, hframe⟩ := ih s.tick
    have hrest (a : Byte) : (countDown a).toNat - k = a.toNat - (k + 1) := by
      rw [countDown_toNat, Nat.sub_sub, Nat.add_comm]
    exact ⟨t, hrun, hdt.trans (hrest s.dt), hst.trans (hrest s.st),
      congrArg (fun u : State => { u with dt := s.dt, st := s.st }) hframe⟩

end Sys2Proof.Machine

/-! ## The fault causes (spec/60_exceptions.md R201) -/

namespace Sys2Proof.Machine

/-- The table of R201: when the instruction `i` at the state `s` raises each cause. `exec_raises_iff` ties it to
`exec`. -/
def raises (i : Instr) (s : State) : Cause → Prop
  | .none => False
  | .regIndex => flagReg ∈ testedRegs i
  | .stackOverflow => s.sp.val = 15 ∧ ∃ a, i = .call a
  | .stackUnderflow => s.sp.val = 0 ∧ i = .ret
  | .memRange => flagReg ∉ testedRegs i ∧ ∃ kind len k, dataAccess i = some (kind, len) ∧ k < len ∧
      s.index.toNat + k > 0xFFF
  | .memGuard => flagReg ∉ testedRegs i ∧ ∃ kind len k, dataAccess i = some (kind, len) ∧ k < len ∧
      s.index.toNat + k < 0x200 ∧ ¬ accessible s kind (s.index.toNat + k)
  | .illegalInstruction => False
  | .noFont => s.cfg.font = none ∧ ∃ x, x ≠ 15#4 ∧ i = .ldFV x

/-! ### A condition of the table raises its cause -/

/-- No data access is longer than the 16 registers. -/
theorem dataAccess_length_le {i : Instr} {kind : Access} {len : Nat} (h : dataAccess i = some (kind, len)) :
    len ≤ 16 := by
  cases i with
  | drw x y n => cases h; exact Nat.le_of_lt n.isLt
  | ldBV x => cases h; decide
  | ldMIV x | ldVMI x => cases h; exact x.isLt
  | _ => cases h

theorem takesFault_of_raises {i : Instr} {s : State} {c : Cause} (h : raises i s c) : takesFault i s c := by
  cases c with
  | none | illegalInstruction => cases h
  | regIndex => exact takesFault_regIndex s h
  | stackOverflow =>
    obtain ⟨hsp, a, rfl⟩ := h
    exact takesFault_of_takesRecord (exec_call_overflow a (by omega))
  | stackUnderflow =>
    obtain ⟨hsp, rfl⟩ := h
    exact takesFault_of_takesRecord (exec_ret_underflow hsp)
  | noFont =>
    obtain ⟨hfont, x, hx, rfl⟩ := h
    exact ⟨_, exec_trap (flagReg_not_mem_single hx) (ruleOf_ldFV_noFont x hfont), rfl⟩
  | memRange =>
    obtain ⟨hi, kind, len, k, hd, hk, hhi⟩ := h
    exact takesFault_memRange_of_end hi hd (Nat.zero_lt_of_lt hk) (dataAccess_length_le hd) (by omega)
  | memGuard =>
    obtain ⟨hi, kind, len, k, hd, hk, hlo, hfail⟩ := h
    exact takesFault_memGuard_of_byte hi hd hk hlo hfail

/-! ### A recorded cause has its condition -/

/-- An access that traps does so with the fault of its addresses. -/
theorem withAccess_eq_error {kind : Access} {n : Nat} {p : State} {rule : State → State} {e : Trap}
    (h : withAccess kind n p rule = .error e) : p.dataFault kind n = some e := by
  obtain ⟨-, ha⟩ | ⟨e', he, ha⟩ := withAccess_cases (kind := kind) (n := n) (p := p) (rule := rule)
  · cases ha.symm.trans h
  · cases ha.symm.trans h
    exact he

/-- The byte at which a data access fails is above 0xFFF, or below 0x200 and not open to the access (R46, R47). -/
theorem raises_of_dataFault {i : Instr} {kind : Access} {len : Nat} {s : State} {e : Trap}
    (hi : flagReg ∉ testedRegs i) (hd : dataAccess i = some (kind, len)) (he : s.dataFault kind len = some e) :
    raises i s e.cause := by
  obtain ⟨k, hk, -, hfault, -⟩ := accessFault_some len he
  have hfail : ¬ accessible s kind (s.index.toNat + k) := by
    rw [← addressFault_none_iff_accessible, hfault]
    exact Option.some_ne_none _
  obtain ⟨hc, hhi⟩ | ⟨hc, hlo⟩ := addressFault_some hfault
  · rw [hc]
    exact ⟨hi, kind, len, k, hd, hk, hhi⟩
  · rw [hc]
    exact ⟨hi, kind, len, k, hd, hk, hlo, hfail⟩

theorem raises_of_ruleOf_error {i : Instr} {s : State} {e : Trap} (hi : flagReg ∉ testedRegs i)
    (h : ruleOf i s.advance = .error e) : raises i s e.cause := by
  cases i with
  | ret =>
    simp only [ruleOf] at h
    split at h <;> cases h
    rename_i hsp
    exact ⟨hsp, rfl⟩
  | call nnn =>
    simp only [ruleOf] at h
    split at h <;> cases h
    rename_i hsp
    exact ⟨Nat.le_antisymm (Nat.le_of_lt_succ s.sp.isLt) (Nat.le_of_lt_succ hsp), nnn, rfl⟩
  | ldFV x =>
    simp only [ruleOf] at h
    split at h <;> cases h
    rename_i hfont
    exact ⟨hfont, x, (List.ne_of_not_mem_cons hi).symm, rfl⟩
  | ldVKey x =>
    simp only [ruleOf] at h
    split at h <;> cases h
  | drw x y n | ldBV x | ldMIV x | ldVMI x =>
    simp only [ruleOf] at h
    exact raises_of_dataFault hi rfl (withAccess_eq_error (p := s.advance) h)
  | _ => cases h

theorem raises_of_exec {i : Instr} {s t : State} (hs : s.fault.cause = .none) (h : exec i s = .next t)
    (ht : t.fault.cause ≠ .none) : raises i s t.fault.cause := by
  obtain ⟨hi, rfl⟩ | ⟨hi, hok⟩ | ⟨hi, e, he, rfl⟩ := exec_cases h
  · exact hi
  · exact absurd ((congrArg FaultRecord.cause (ruleOf_effect hi hok).fault).trans hs) ht
  · exact raises_of_ruleOf_error hi he

/-! ### The table -/

/-- From a state without a fault, the cause recorded is the one whose condition holds. -/
theorem exec_raises_iff {i : Instr} {s t : State} (hs : s.fault.cause = .none) (h : exec i s = .next t) {c : Cause}
    (hc : c ≠ .none) : t.fault.cause = c ↔ raises i s c := by
  constructor
  · rintro rfl
    exact raises_of_exec hs h hc
  · intro hraises
    obtain ⟨u, hu, hcause⟩ := takesFault_of_raises hraises
    obtain rfl := Host.Outcome.next.inj (h.symm.trans hu)
    exact hcause

/-- Settles O12: the rows of the table are those of `raises`. -/
theorem causesAreRaisedAsTheTableSays : Obligations.CausesAreRaisedAsTheTableSays := by
  unfold Obligations.CausesAreRaisedAsTheTableSays
  refine ⟨⟨rfl, rfl, rfl, rfl, rfl, rfl, rfl, rfl⟩, fun i s t hs h => ?_⟩
  have row {c : Cause} (hc : c ≠ .none) : t.fault.cause = c ↔ raises i s c := exec_raises_iff hs h hc
  exact ⟨row (by decide), row (by decide), row (by decide), row (by decide), row (by decide), row (by decide),
    (row (by decide)).mp⟩

end Sys2Proof.Machine

/-! ## Reset, `init` and `load` (spec/70_reset_and_hazards.md) -/

namespace Sys2Proof.Machine

/-! ### The reset values (spec/70_reset_and_hazards.md R230) -/

@[simp] theorem State.resetFor_reg (cfg : Config) (r : Reg) : (State.resetFor cfg).reg r = 0 :=
  Vector.getElem_replicate r.isLt

@[simp] theorem State.resetFor_slot (cfg : Config) {k : Nat} (h : k < 16) : (State.resetFor cfg).stack[k] = 0 :=
  Vector.getElem_replicate h

/-- Settles O54: every field of the reset state is the constant of R230's table. -/
theorem resetLeavesTheTable : Obligations.ResetLeavesTheTable := by
  unfold Obligations.ResetLeavesTheTable
  refine ⟨fun cfg => ?_, rfl⟩
  exact ⟨State.resetFor_reg cfg, rfl, rfl, rfl, fun _ => State.resetFor_slot cfg, rfl, rfl, fun _ => rfl,
    Framebuffer.get_blank, rfl, rfl, rfl, rfl⟩

/-- Settles O58: the invariant of the state after `init`, which a reset state is. -/
theorem invariantHoldsAtReset : Obligations.InvariantHoldsAtReset := State.resetFor_inv

/-! ### `load` (spec/70_reset_and_hazards.md R232, R233) -/

/-- `load` is enabled on an engine that is not loaded (R29). -/
theorem hostOp_load_of_not_loaded {s : State} (hl : s.loaded = false) (bytes : List Byte) :
    hostOp (.load bytes) s = .next (s.load bytes) := by
  simp [hostOp, hl]

theorem loadResult_ok {bytes : List Byte} (h : bytes.length ≤ Config.romMax) : loadResult bytes = .ok :=
  if_pos h

theorem loadResult_romTooLarge {bytes : List Byte} (h : Config.romMax < bytes.length) :
    loadResult bytes = .romTooLarge :=
  if_neg (Nat.not_le.mpr h)

theorem State.load_of_ok {bytes : List Byte} (h : loadResult bytes = .ok) (s : State) :
    s.load bytes =
      { s with mem := s.mem.writeBytes Config.progBase bytes, romLen := bytes.length, loaded := true } := by
  rw [State.load, h]

theorem State.load_of_romTooLarge {bytes : List Byte} (h : loadResult bytes = .romTooLarge) (s : State) :
    s.load bytes = s := by
  rw [State.load, h]

/-- A ROM that fits ends inside the address space. -/
theorem rom_end {bytes : List Byte} (h : bytes.length ≤ Config.romMax) :
    Config.progBase + bytes.length ≤ Config.memSize := by
  simp only [Config.romMax, Config.progBase, Config.memSize] at *
  omega

/-- Settles O56: `load` of a ROM that fits is one block write from 0x200. -/
theorem loadCopiesTheRom : Obligations.LoadCopiesTheRom := by
  unfold Obligations.LoadCopiesTheRom
  intro bytes s hl hwf hlen
  have hok := loadResult_ok hlen
  have hend := rom_end hlen
  refine ⟨hok, _, hostOp_load_of_not_loaded hl bytes, ?_⟩
  rw [State.load_of_ok hok]
  exact ⟨fun _ => Memory.read_writeBytes_inside hwf hend, fun _ => Memory.read_writeBytes_outside hwf hend,
    rfl, rfl, rfl⟩

/-- Settles O57: `load` of a larger ROM is no change of the state. -/
theorem tooLargeRomChangesNothing : Obligations.TooLargeRomChangesNothing := by
  unfold Obligations.TooLargeRomChangesNothing
  intro bytes s hl hlen
  have hlarge := loadResult_romTooLarge hlen
  exact ⟨hlarge, by rw [hostOp_load_of_not_loaded hl, State.load_of_romTooLarge hlarge]⟩

/-! ### A recorded fault (spec/60_exceptions.md R209, R210, R212) -/

/-- A faulted engine takes no step, and `load`, `tick` and `render_ack` do not write the record. -/
theorem hostOp_keeps_fault {op : HostOp} {s t : State} (hinit : op ≠ .init) (h : hostOp op s = .next t)
    (hf : s.fault.cause ≠ .none) : t.fault = s.fault := by
  cases op with
  | init => exact absurd rfl hinit
  | load bytes =>
    obtain ⟨-, rfl⟩ := hostOp_load h
    rw [State.load_eq]
  | step => exact absurd (State.stuck_none_iff.mp (step_cases h).1).2 hf
  | tick => cases h; rfl
  | renderAck => cases h; rfl

/-- A run that answers has taken its first operation and run the others from there. -/
theorem hostRun_cons_next {op : HostOp} {ops : List HostOp} {s t : State} (h : hostRun (op :: ops) s = .next t) :
    ∃ u, hostOp op s = .next u ∧ hostRun ops u = .next t := by
  unfold hostRun at h
  split at h
  · exact ⟨_, ‹_›, h⟩
  · cases h
  · cases h

/-- Without `init` a recorded fault stays to the end of a run. -/
theorem hostRun_keeps_fault {ops : List HostOp} {s t : State} (hf : s.fault.cause ≠ .none) (hinit : .init ∉ ops)
    (h : hostRun ops s = .next t) : t.fault = s.fault := by
  induction ops generalizing s with
  | nil => cases h; rfl
  | cons op ops ih =>
    obtain ⟨u, hu, hrun⟩ := hostRun_cons_next h
    have hkeep : u.fault = s.fault := hostOp_keeps_fault (List.ne_of_not_mem_cons hinit).symm hu hf
    exact (ih (hkeep ▸ hf) (List.not_mem_of_not_mem_cons hinit) hrun).trans hkeep

/-- The final state of a successful run is the one the operations answer, and no fault is recorded there. -/
theorem SuccessfulRun.final {ops : List HostOp} {s t : State} (h : SuccessfulRun ops s t) :
    hostRun ops s = .next t ∧ t.fault.cause = .none := by
  unfold SuccessfulRun at h
  cases hrun : hostRun ops s with
  | next u =>
    by_cases hf : u.fault.cause = .none
    · cases (runEnd_final hrun hf).symm.trans h
      exact ⟨rfl, hf⟩
    · cases (runEnd_faulted hrun hf).symm.trans h
  | fault f => simp [runEnd, hrun] at h
  | refused r => simp [runEnd, hrun] at h

/-- Settles O55: one operation other than `init` keeps a recorded fault, so by induction every run without it does. -/
theorem onlyInitClearsAFault : Obligations.OnlyInitClearsAFault := by
  unfold Obligations.OnlyInitClearsAFault
  refine ⟨fun _ => rfl, fun s t h a => ?_, fun _ _ _ => hostOp_keeps_fault, fun ops s t hf hinit h => ?_,
    fun _ _ _ h => h.final.2⟩
  · cases h; rfl
  · have hkeep := hostRun_keeps_fault hf hinit h
    exact hkeep ▸ runEnd_faulted h (hkeep ▸ hf)

end Sys2Proof.Machine
